-- ==== Sys2Proof/Word.lean ====
section
/-! DEFINITION. The word types of the unit: what the spec treats as bits (00_scope.md R4, R5, R6). -/

namespace Sys2Proof

/-- An address value, `ADDR_W` = 32 bits (R4), the operand `a` of a command. -/
abbrev AddressValue := BitVec 32

/-- One word of the bitmap, `WORD_W` = 64 bits (R4), and the operand `d` of a command. -/
abbrev BitmapWord := BitVec 64

/-- The register `COUNT`, `COUNT_W` = 33 bits (R5, R16). -/
abbrev CountValue := BitVec 33

/-- A command word, `CW_W` = 100 bits (R5, R60). -/
abbrev CommandWord := BitVec 100

/-- A response word, `RW_W` = 68 bits (R5, R62). -/
abbrev ResponseWord := BitVec 68

/-- The field `op` of a command word (R61). -/
abbrev Opcode := BitVec 4

/-- The index of a word inside its plane, in [0, 2^25 - 1] (R38). -/
abbrev WordIndex := BitVec 25

/-- The index of a bit inside its word, in [0, 63] (R38). -/
abbrev BitOffset := BitVec 6

/-- The global word index g, in [0, 2^26 - 1] (R31). -/
abbrev GlobalIndex := BitVec 26

end Sys2Proof
end

