-- ==== Sys2Proof/Syntax.lean ====
section
/-! DEFINITION. The commands of the unit, one constructor per row of spec/opcode_table.json (30_encoding.md R63). -/

namespace Sys2Proof

/-- A command with the operands it uses (R63, R65). The field `d` of CONSTRUCT, REGISTER, COUNT and RDWORD and the
field `a` of CONSTRUCT and COUNT are ignored (R66) and so are no operands. -/
inductive Instr where
  /-- CONSTRUCT, op 0x1 (R80). -/
  | construct
  /-- REGISTER v, op 0x2 (R85). -/
  | register (v : AddressValue)
  /-- COUNT, op 0x3 (R95). -/
  | count
  /-- RDWORD a, op 0x4, extension M (R101). -/
  | rdword (a : AddressValue)
  /-- MERGE a, d, op 0x5, extension M (R102). -/
  | merge (a : AddressValue) (d : BitmapWord)
deriving DecidableEq, Repr

/-- The two commands of extension M (R100). -/
def Instr.needsExtM : Instr → Bool
  | .construct => false
  | .register _ => false
  | .count => false
  | .rdword _ => true
  | .merge _ _ => true

end Sys2Proof
end

