-- ==== Sys2Proof/WellFormed.lean ====
section
/-! DEFINITION. Which instructions a unit has. Operand widths hold by type (30_encoding.md R61: every value of the
field is a valid operand), so the one check is the presence of extension M (R68, R100). -/

namespace Sys2Proof

/-- On a unit with parameter `EXT_M` = `extM` the instruction exists (R63 column "Present when", R100). -/
def wellFormed (extM : Bool) (i : Instr) : Bool :=
  extM || !i.needsExtM

end Sys2Proof
end

