-- ==== Sys2Proof/Decode.lean ====
section
/-! DEFINITION. The command word: its fields, the decoder (total, rejecting by name), the encoder, and the opcode
table as data (30_encoding.md R60 to R71). -/

namespace Sys2Proof

/-- `op` = CW[99:96] (R61). -/
def opField (cw : CommandWord) : Opcode := cw.extractLsb' 96 4

/-- `a` = CW[95:64] (R61). -/
def aField (cw : CommandWord) : AddressValue := cw.extractLsb' 64 32

/-- `d` = CW[63:0] (R61). -/
def dField (cw : CommandWord) : BitmapWord := cw.extractLsb' 0 64

/-- Why a command word selects no command. -/
inductive Illegal where
  /-- `op` is 0x0 or 0x6 to 0xF (R67). -/
  | reservedOpcode (op : Opcode)
  /-- `op` is 0x4 or 0x5 on a unit without extension M (R68). -/
  | extensionAbsent (op : Opcode)
deriving DecidableEq, Repr

/-- The decoder (R65). It looks at `op` and the parameter `EXT_M` and at nothing else of the unit. -/
def decode (extM : Bool) (cw : CommandWord) : Except Illegal Instr :=
  let op := opField cw
  if op = 0x1 then .ok .construct
  else if op = 0x2 then .ok (.register (aField cw))
  else if op = 0x3 then .ok .count
  else if op = 0x4 then
    if extM then .ok (.rdword (aField cw)) else .error (.extensionAbsent op)
  else if op = 0x5 then
    if extM then .ok (.merge (aField cw) (dField cw)) else .error (.extensionAbsent op)
  else .error (.reservedOpcode op)

/-- A command word from its three fields: `op` in the top bits, then `a`, then `d`, so that as one number it is
`op * 2^96 + a * 2^64 + d` (R61). -/
def commandWord (op : Opcode) (a : AddressValue) (d : BitmapWord) : CommandWord :=
  (op ++ a ++ d).cast (by decide)

/-- The encoder: the canonical word, 0 in every ignored field (R66, R72). -/
def encode : Instr → CommandWord
  | .construct => commandWord 0x1 0 0
  | .register v => commandWord 0x2 v 0
  | .count => commandWord 0x3 0 0
  | .rdword a => commandWord 0x4 a 0
  | .merge a d => commandWord 0x5 a d

/-- One row of spec/opcode_table.json: a word belongs to the row when it agrees with `bits` under `mask`. -/
structure OpcodeRow where
  mnemonic : String
  bits : CommandWord
  mask : CommandWord
  extension : Bool
deriving DecidableEq, Repr

/-- The row selects the word (R63: match `op * 2^96` under mask `0xF * 2^96`). -/
def OpcodeRow.selects (r : OpcodeRow) (cw : CommandWord) : Bool := cw &&& r.mask == r.bits

/-- spec/opcode_table.json, row by row (R63). -/
def opcodeTable : List OpcodeRow :=
  [ ⟨"CONSTRUCT", 0x1000000000000000000000000, 0xF000000000000000000000000, false⟩,
    ⟨"REGISTER", 0x2000000000000000000000000, 0xF000000000000000000000000, false⟩,
    ⟨"COUNT", 0x3000000000000000000000000, 0xF000000000000000000000000, false⟩,
    ⟨"RDWORD", 0x4000000000000000000000000, 0xF000000000000000000000000, true⟩,
    ⟨"MERGE", 0x5000000000000000000000000, 0xF000000000000000000000000, true⟩ ]

/-- The row of the table that an instruction belongs to. -/
def Instr.mnemonic : Instr → String
  | .construct => "CONSTRUCT"
  | .register _ => "REGISTER"
  | .count => "COUNT"
  | .rdword _ => "RDWORD"
  | .merge _ _ => "MERGE"

/-- The command word that a table word of `nbits` bits stands for: bit i of the number is CW[i]. A number with a bit
above bit 99 is no command word (R60: exactly 100 bits; notes/assumptions/10.md). -/
def tableCommandWord (nbits w : Nat) : Option CommandWord :=
  if w % 2 ^ nbits < 2 ^ 100 then some (BitVec.ofNat 100 (w % 2 ^ nbits)) else none

/-- What the decoder of a unit with extension M, which has every row of the table, reads from a table word
(notes/assumptions/10.md). -/
def decodeTableWord (nbits w : Nat) : Option Instr :=
  match tableCommandWord nbits w with
  | none => none
  | some cw =>
    match decode true cw with
    | .ok i => some i
    | .error _ => none

end Sys2Proof
end

