-- ==== Sys2Proof/Config.lean ====
section
/-! DEFINITION. The parameters the spec fixes (00_scope.md R4, R5) and the free values it leaves open
(R24, R151; 91_not_in_source.md N12). `EXT_M` (R5) is not here: it is the field `State.extM`, so that every
statement is about both kinds of unit (notes/assumptions/3.md). -/

namespace Sys2Proof.Config

/-- Bits of one word (R4 `WORD_W`). -/
def wordBits : Nat := 64

/-- Words of one plane, 2^25 (R4 `PLANE_WORDS`). -/
def planeWords : Nat := 2 ^ 25

/-- Bits of one plane, 2^31 (R4 `PLANE_BITS`). -/
def planeBits : Nat := 2 ^ 31

/-- Words of the whole bitmap, 2^26 (R4 `TOTAL_WORDS`). -/
def totalWords : Nat := 2 ^ 26

/-- Bits of the whole bitmap, 2^32 (R4 `TOTAL_BITS`). -/
def totalBits : Nat := 2 ^ 32

/-- The first address value of the high plane, 2^31 (R4 `SPLIT`). -/
def split : Nat := 2 ^ 31

/-- What is subtracted from a high-plane address value: 2^31, never 2^31 - 1 (R5 `REBASE`, R37, R42, D1). -/
def rebase : Nat := 2 ^ 31

/-- FREE VALUE (R24, R151, U1; notes/assumptions/4.md). Word `i` of the plane whose contents are the `n`-th
draw after power-on or reset: any 64-bit value. -/
opaque unspecifiedWord : (n : Nat) → (i : Nat) → BitmapWord

/-- FREE VALUE (R24, R151, U1; notes/assumptions/4.md). `COUNT` after a reset, the `n`-th draw: any 33-bit value. -/
opaque unspecifiedCount : (n : Nat) → CountValue

/-- FREE VALUE (R111, N12; notes/assumptions/13.md). What the HOST's base-10 parser makes of a segment at an edge N12
names (a leading sign, leading zeros, an empty segment, blanks inside, a carriage return at the end of the line): `none`
where it fails; `some k` where it accepts, and then reads k runs of digits past the first, if blanks part them. The
value is never free beyond that: it is what the digits read write in base 10. -/
opaque octetEdge : List Char → Option Nat

end Sys2Proof.Config
end

