-- ==== Sys2Proof/Machine/State.lean ====
section
/-! DEFINITION. The state of the unit as plain data (10_state.md R10, R24), the reasons a step could stop, and the
state after reset. -/

namespace Sys2Proof.Machine

/-- What every word of a plane that is not listed reads as. -/
inductive Background where
  /-- 0: what CONSTRUCT writes to every word (R25, R80). -/
  | zero
  /-- Unspecified contents after reset (R24): the free value of draw `draw`, `Config.unspecifiedWord draw i` in
  word `i` (notes/assumptions/4.md). -/
  | unspecified (draw : Nat)
deriving DecidableEq, Repr

/-- One plane of the bitmap store (R14, R15, R30): the words that differ from the background, as
(word index, word) pairs, in the canonical form of `Plane.wf`. The cell is one 64-bit word: the store has no byte
address and no byte order (R30, R35, R43; notes/assumptions/6.md). -/
structure Plane where
  background : Background
  words : List (Nat × BitmapWord)
deriving DecidableEq, Repr

/-- What the outside world can do to the unit (R76, R150, R152). -/
inductive Input where
  /-- The host presents a command word on the command port (R76). -/
  | command (cw : CommandWord)
  /-- The reset input is asserted between commands (R150). -/
  | reset
  /-- The reset input is asserted while the command `cw` is being carried out (R152). -/
  | resetDuring (cw : CommandWord)
deriving DecidableEq, Repr

/-- The state. `lo`, `hi`, `count` and `ready` are the spec's four elements (R10); the other fields are the model's:
the parameter, the two ports and the counter of the free values (INVENTORY.md, State). -/
structure State where
  /-- `LO`, plane 0 (R14). -/
  lo : Plane
  /-- `HI`, plane 1 (R15). -/
  hi : Plane
  /-- `COUNT` (R16). -/
  count : CountValue
  /-- `READY` (R17). -/
  ready : Bool
  /-- The parameter `EXT_M` of this unit (R5, R100). Nothing writes it (notes/assumptions/3.md). -/
  extM : Bool
  /-- What has arrived and is not yet accepted, oldest first (R49, R76; notes/assumptions/1.md). -/
  inputs : List Input
  /-- The response words delivered so far, oldest first (R49, R62; notes/assumptions/2.md). -/
  rsps : List ResponseWord
  /-- How many free values have been drawn (notes/assumptions/5.md). -/
  draws : Nat
deriving DecidableEq, Repr

/-- Why the machine stops with a fault: never. "Nothing in the unit is `fault` (there is no trap) and nothing is
`stuck`" (93_implementation_defined.md section 2; R130, R136), so there is no reason to name
(notes/assumptions/11.md). Safe: the model goes on wherever the spec does. -/
inductive Fault where
deriving DecidableEq, Repr

/-- Why the machine has no meaning for an instruction. -/
inductive Refusal where
  /-- Raised by a refused arm of `exec` for the instruction of that mnemonic; safe. Every arm has its meaning, so
  none raises it (notes/assumptions/11.md). -/
  | notModelled (mnemonic : String)
deriving DecidableEq, Repr

/-- The unit with parameter `EXT_M` = `extM` right after power-on, which is a reset (R24, R150, R151): `READY` = 0, the
planes and `COUNT` unspecified (draws 0, 1 and 2), nothing arrived and nothing answered. -/
def State.resetFor (extM : Bool) : State where
  lo := ⟨.unspecified 0, []⟩
  hi := ⟨.unspecified 1, []⟩
  count := Config.unspecifiedCount 2
  ready := false
  extM := extM
  inputs := []
  rsps := []
  draws := 3

/-- The state after reset of a unit that has extension M (notes/assumptions/3.md); `State.resetFor false` is the
baseline unit. -/
def State.reset : State := State.resetFor true

end Sys2Proof.Machine
end

