-- ==== Sys2Proof/Machine/Flags.lean ====
section
/-! DEFINITION. The unit has no flags (10_state.md R13): what a processor would leave in a flag goes out in the status
field of the response word. The status codes and the response word (30_encoding.md R62, R64). -/

namespace Sys2Proof.Machine

/-- The status names (R64). -/
inductive Status where
  | done
  | new
  | present
  | notReady
  | illegal
deriving DecidableEq, Repr

/-- The status codes (R64). -/
def Status.code : Status → BitVec 4
  | .done => 0x0
  | .new => 0x1
  | .present => 0x2
  | .notReady => 0xE
  | .illegal => 0xF

/-- `st` in the top bits, then `q`, so that as one number `RW = st * 2^64 + q` (R62). -/
def responseWord (st : Status) (q : BitmapWord) : ResponseWord := (st.code ++ q).cast (by decide)

/-- `st` = RW[67:64] (R62). -/
def stField (rw : ResponseWord) : BitVec 4 := rw.extractLsb' 64 4

/-- `q` = RW[63:0] (R62). -/
def qField (rw : ResponseWord) : BitmapWord := rw.extractLsb' 0 64

/-- The status a code names; the codes 0x3 to 0xD name none (R64, U4). -/
def Status.ofCode (c : BitVec 4) : Option Status :=
  [Status.done, .new, .present, .notReady, .illegal].find? fun st => st.code == c

end Sys2Proof.Machine
end

