-- ==== Sys2Proof/Machine/Operands.lean ====
section
/-! DEFINITION. The one operand form of the unit: the index converter from a 32-bit address value to a plane, a word
index and a bit offset (20_memory.md R31 to R42), as wiring (R39) and as the document's arithmetic (R36 to R38). -/

namespace Sys2Proof.Machine

/-- A plane select s: 0 is `LO`, 1 is `HI` (R7 `PLANE(s)`). -/
inductive PlaneSelect where
  | low
  | high
deriving DecidableEq, Repr

/-- The plane select as the number 0 or 1. -/
def PlaneSelect.num : PlaneSelect → Nat
  | .low => 0
  | .high => 1

/-- The place of one bit in the store (R32). -/
structure Place where
  plane : PlaneSelect
  widx : WordIndex
  off : BitOffset
deriving DecidableEq, Repr

/-- `s(v) = v[31]` (R39). -/
def planeOf (v : AddressValue) : PlaneSelect := if v.getLsbD 31 then .high else .low

/-- `pos(v) = v[30:0]` (R39). -/
def posOf (v : AddressValue) : BitVec 31 := v.extractLsb' 0 31

/-- `widx(v) = v[30:6]` (R39). -/
def widxOf (v : AddressValue) : WordIndex := v.extractLsb' 6 25

/-- `off(v) = v[5:0]` (R39). -/
def offOf (v : AddressValue) : BitOffset := v.extractLsb' 0 6

/-- `g(v) = v[31:6]` (R39). -/
def globalOf (v : AddressValue) : GlobalIndex := v.extractLsb' 6 26

/-- The index converter (R36 to R39). -/
def placeOf (v : AddressValue) : Place := ⟨planeOf v, widxOf v, offOf v⟩

/-- The other way: bit `off` of word `widx` of plane s stands for `s * 2^31 + widx * 64 + off` (R32). -/
def Place.position (p : Place) : Nat :=
  Config.planeBits * p.plane.num + Config.wordBits * p.widx.toNat + p.off.toNat

/-- `s(v)` by the document's comparison (R36). -/
def planeByValue (v : AddressValue) : Nat := if v.toNat ≥ Config.split then 1 else 0

/-- `pos(v)` by the document's rebasing (R37). -/
def posByValue (v : AddressValue) : Nat :=
  if planeByValue v = 1 then v.toNat - Config.rebase else v.toNat

/-- `widx(v)` by the document's division (R38). -/
def widxByValue (v : AddressValue) : Nat := posByValue v / Config.wordBits

/-- `off(v)` by the document's remainder (R38). -/
def offByValue (v : AddressValue) : Nat := posByValue v % Config.wordBits

/-- The mask `1 << off` of a bit offset: offset 0 is the least significant bit (R34). -/
def maskOf (k : BitOffset) : BitmapWord := 1#64 <<< k.toNat

end Sys2Proof.Machine
end

