-- ==== Sys2Proof/Machine/Ops.lean ====
section
/-! DEFINITION. The named operations over the store, the registers and the ports (00_scope.md R7; 20_memory.md R44 to
R48; 30_encoding.md R62; 60_exceptions.md R131 to R137; 70_reset_and_hazards.md R151). -/

namespace Sys2Proof.Machine

/-- What word `i` of a plane reads as when it is not listed: 0 after CONSTRUCT (R25), the free value of the draw after
reset (R24). -/
def Background.word : Background → Nat → BitmapWord
  | .zero, _ => 0
  | .unspecified n, i => Config.unspecifiedWord n i

/-- The cell of index `i`, if one is listed. -/
def lookupCell (i : Nat) : List (Nat × BitmapWord) → Option BitmapWord
  | [] => none
  | (j, x) :: rest => if j = i then some x else lookupCell i rest

/-- Lists the cell `(i, w)` in its place. -/
def insertCell (i : Nat) (w : BitmapWord) : List (Nat × BitmapWord) → List (Nat × BitmapWord)
  | [] => [(i, w)]
  | (j, x) :: rest =>
    if i < j then (i, w) :: (j, x) :: rest
    else if j = i then (i, w) :: rest
    else (j, x) :: insertCell i w rest

/-- Unlists the cell of index `i`. -/
def eraseCell (i : Nat) : List (Nat × BitmapWord) → List (Nat × BitmapWord)
  | [] => []
  | (j, x) :: rest => if j = i then rest else (j, x) :: eraseCell i rest

/-- Word `i` of a plane. -/
def Plane.read (p : Plane) (i : Nat) : BitmapWord := (lookupCell i p.words).getD (p.background.word i)

/-- The plane with word `i` replaced by `w`. The canonical form is kept: writing what an unlisted word reads as
unlists the cell. -/
def Plane.write (p : Plane) (i : Nat) (w : BitmapWord) : Plane :=
  if w = p.background.word i then { p with words := eraseCell i p.words }
  else { p with words := insertCell i w p.words }

/-- Every word 0 (R25). -/
def Plane.zeroed : Plane := ⟨.zero, []⟩

/-- The indices of the cells rise strictly, from `least` on. -/
def risingFrom : Nat → List (Nat × BitmapWord) → Bool
  | _, [] => true
  | least, (j, _) :: rest => decide (least ≤ j) && risingFrom (j + 1) rest

/-- The canonical form of a plane: indices strictly rising and inside the plane (R14, R15), no cell equal to what an
unlisted word reads as. -/
def Plane.wf (p : Plane) : Bool :=
  risingFrom 0 p.words &&
    p.words.all fun c => decide (c.1 < Config.planeWords) && c.2 != p.background.word c.1

/-- The canonical form of the whole store: equal stores are equal data. -/
def Memory.wf (s : State) : Bool := s.lo.wf && s.hi.wf

/-- `PLANE(s)` (R7). -/
def State.plane (s : State) : PlaneSelect → Plane
  | .low => s.lo
  | .high => s.hi

/-- The state with one plane replaced. -/
def State.setPlane (s : State) (k : PlaneSelect) (p : Plane) : State :=
  match k with
  | .low => { s with lo := p }
  | .high => { s with hi := p }

/-- `WordRead(s, widx)` (R44). The spec defines it for `READY` = 1 only, and no command calls it otherwise; it is total
here (notes/assumptions/9.md). -/
def wordRead (k : PlaneSelect) (i : WordIndex) (s : State) : BitmapWord := (s.plane k).read i.toNat

/-- `WordWrite(s, widx, w)` (R45). -/
def wordWrite (k : PlaneSelect) (i : WordIndex) (w : BitmapWord) (s : State) : State :=
  s.setPlane k ((s.plane k).write i.toNat w)

/-- The word that holds the bit of an address value. -/
def wordOf (v : AddressValue) (s : State) : BitmapWord := wordRead (planeOf v) (widxOf v) s

/-- `BitTest(v)` (R46). -/
def bitTest (v : AddressValue) (s : State) : Bool := (wordOf v s).getLsbD (offOf v).toNat

/-- `BitSet(v)` (R47). -/
def bitSet (v : AddressValue) (s : State) : State :=
  wordWrite (planeOf v) (widxOf v) (wordOf v s ||| maskOf (offOf v)) s

/-- `popcount64(w)`, the number of 1 bits, in [0, 64] (R6, R48). -/
def popcount64 (w : BitmapWord) : Nat := (List.range 64).countP fun i => w.getLsbD i

/-- `PopCount(P)`, the sum over the words of a plane (R48). A specification function: no command computes it,
and it is irreducible so that nothing evaluates the sum by accident. -/
@[irreducible] def Plane.popCount (p : Plane) : Nat :=
  ((List.range Config.planeWords).map fun i => popcount64 (p.read i)).sum

/-- The aggregator: `COUNT <- COUNT + n` on 33-bit unsigned values (R87, R103). -/
def addToCount (n : Nat) (s : State) : State := { s with count := s.count + BitVec.ofNat 33 n }

/-- Everything CONSTRUCT writes (R80). -/
def constructed (s : State) : State :=
  { s with lo := Plane.zeroed, hi := Plane.zeroed, count := 0, ready := true }

/-- `respond(st, q)`: ends a command by delivering its response word (R7, R62). -/
def respond (st : Status) (q : BitmapWord) (s : State) : State :=
  { s with rsps := s.rsps ++ [responseWord st q] }

/-- An error response, the unit's one form of exception: no state element changes, nothing is recorded, no control is
transferred, q = 0 (R131, R132, R133, R136). There is no return from it: the unit takes the next command (R137). -/
def refuse (st : Status) (s : State) : State := respond st 0 s

/-- The reset event (R150, R151): `READY` = 0; `LO`, `HI` and `COUNT` unspecified, each a free value not drawn before
("possibly different after each reset", R24). The responses delivered before it stay delivered; the parameter
`EXT_M` and what has not yet arrived are outside the unit. -/
def resetEvent (s : State) : State :=
  { s with
    lo := ⟨.unspecified s.draws, []⟩
    hi := ⟨.unspecified (s.draws + 1), []⟩
    count := Config.unspecifiedCount (s.draws + 2)
    ready := false
    draws := s.draws + 3 }

end Sys2Proof.Machine
end

