-- ==== Sys2Proof/Machine/Count.lean ====
section
/-! DEFINITION. The query command COUNT (42_count.md). -/

namespace Sys2Proof.Machine

/-- COUNT (R95, R96): answers zext_64(COUNT) and writes nothing. -/
def execCount (s : State) : Host.Outcome State Fault Refusal :=
  if s.ready then .next (respond .done (s.count.setWidth 64) s)
  else .next (refuse .notReady s)

end Sys2Proof.Machine
end

