-- ==== Sys2Proof/Machine/Lifecycle.lean ====
section
/-! DEFINITION. The lifecycle command CONSTRUCT (40_lifecycle.md). -/

namespace Sys2Proof.Machine

/-- CONSTRUCT (R80, R81): accepted whatever `READY` is; reads nothing; one indivisible step. -/
def execConstruct (s : State) : Host.Outcome State Fault Refusal :=
  .next (respond .done 0 (constructed s))

end Sys2Proof.Machine
end

