-- ==== Sys2Proof/Machine/Merge.lean ====
section
/-! DEFINITION. The optional extension M: RDWORD and MERGE (43_merge_extension.md). On a unit without the extension
each answers ILLEGAL, before `READY` is looked at (R68, R101, R102, R108, R135); `step` answers so already at
decoding (notes/assumptions/8.md). -/

namespace Sys2Proof.Machine

/-- RDWORD a (R101, R108): answers the word that holds the bit of a; a[5:0] is not used. -/
def execRdword (a : AddressValue) (s : State) : Host.Outcome State Fault Refusal :=
  if s.extM then
    if s.ready then .next (respond .done (wordOf a s) s)
    else .next (refuse .notReady s)
  else .next (refuse .illegal s)

/-- MERGE a, d (R102, R103, R108): ORs d into the word that holds the bit of a and adds to `COUNT` the number of bits
this turned from 0 to 1; a[5:0] is not used. -/
def execMerge (a : AddressValue) (d : BitmapWord) (s : State) : Host.Outcome State Fault Refusal :=
  if s.extM then
    if s.ready then
      let w := wordOf a s
      let added := popcount64 (d &&& ~~~w)
      .next (respond .done (BitVec.ofNat 64 added)
        (addToCount added (wordWrite (planeOf a) (widxOf a) (w ||| d) s)))
    else .next (refuse .notReady s)
  else .next (refuse .illegal s)

end Sys2Proof.Machine
end

