-- ==== Sys2Proof/Machine/Register.lean ====
section
/-! DEFINITION. The registration command REGISTER (41_register.md). -/

namespace Sys2Proof.Machine

/-- REGISTER v (R85, R86): atomic test and set of the bit of v, with the aggregator (R87). -/
def execRegister (v : AddressValue) (s : State) : Host.Outcome State Fault Refusal :=
  if s.ready then
    if bitTest v s then .next (respond .present 0 s)
    else .next (respond .new 0 (addToCount 1 (bitSet v s)))
  else .next (refuse .notReady s)

end Sys2Proof.Machine
end

