-- ==== Sys2Proof/Machine/Dispatch.lean ====
section
/-! DEFINITION. One arm per command (60_exceptions.md R135, after decoding). -/

namespace Sys2Proof.Machine

def exec (i : Instr) (s : State) : Host.Outcome State Fault Refusal :=
  match i with
  | .construct => Sys2Proof.Machine.execConstruct s
  | .register v => Sys2Proof.Machine.execRegister v s
  | .count => Sys2Proof.Machine.execCount s
  | .rdword a => Sys2Proof.Machine.execRdword a s
  | .merge a d => Sys2Proof.Machine.execMerge a d s

end Sys2Proof.Machine
end

