-- ==== Sys2Proof/Machine/Port.lean ====
section
/-! DEFINITION. What arrives at the unit: a command at the command port, or the reset input (30_encoding.md R76;
60_exceptions.md R135; 70_reset_and_hazards.md R150 to R152). -/

namespace Sys2Proof.Machine

/-- A command word is carried out (R8, R135): decoding first; a word that selects no command is answered ILLEGAL. -/
def accept (cw : CommandWord) (s : State) : Host.Outcome State Fault Refusal :=
  match decode s.extM cw with
  | .ok i => exec i s
  | .error _ => .next (refuse .illegal s)

/-- One input is taken. A command that reset cuts off is abandoned: no response, the state of R151 whatever part of
the command had been done (R152). -/
def handle (i : Input) (s : State) : Host.Outcome State Fault Refusal :=
  match i with
  | .command cw => accept cw s
  | .reset => .next (resetEvent s)
  | .resetDuring _ => .next (resetEvent s)

/-- The next input is taken in the order of arrival (R49, R157); with none pending the unit waits, all state held
(R143). -/
def takeInput (s : State) : Host.Outcome State Fault Refusal :=
  match s.inputs with
  | [] => .next s
  | i :: rest => handle i { s with inputs := rest }

/-- The host presents a command that is to be the next one taken. -/
def present (cw : CommandWord) (s : State) : State := { s with inputs := .command cw :: s.inputs }

end Sys2Proof.Machine
end

