-- ==== Sys2Proof/Machine/Step.lean ====
section
/-! DEFINITION. One step of the machine, and the word the next step runs. -/

namespace Sys2Proof.Machine

/-- One step: the unit takes one input, or waits (00_scope.md R8; notes/assumptions/1.md). -/
def step (s : State) : Host.Outcome State Fault Refusal := takeInput s

/-- `s` with the table word presented on the command port so that the very next step takes it. A number that is no
command word cannot be presented (notes/assumptions/10.md). -/
def State.withFetchWord (s : State) (nbits w : Nat) : State :=
  match tableCommandWord nbits w with
  | some cw => present cw s
  | none => s

end Sys2Proof.Machine
end

