-- ==== Sys2Proof/Machine/Assembler.lean ====
section
/-! DEFINITION. The assembler the spec defines for writing programs down, and the written form of responses
(30_encoding.md R72, R73, R74). It stands outside the machine: `step` does not use it. Text is a list of characters. -/

namespace Sys2Proof.Machine

/-- Why a line is no command: an assembly error (R72, R73). -/
inductive AsmError where
  /-- The mnemonic is none of R72, R73, or the operands are not as many as it takes. -/
  | unknownLine
  /-- An operand is not a number as R72 writes them. -/
  | notANumber
  /-- A number outside the operand's range (R72, R73). -/
  | outOfRange
  /-- An octet of REGISTER.IP outside [0, 255] (R73). -/
  | octetOutOfRange
deriving DecidableEq, Repr

/-- A line of assembly: the commands (R72) and the pseudo-instructions (R73). The spellings construct(), register(v)
and count() of R73 parse to the same lines as CONSTRUCT, REGISTER v and COUNT. -/
inductive AsmLine where
  | construct
  | register (v : Nat)
  | registerIp (o0 o1 o2 o3 : Nat)
  | count
  | rdword (a : Nat)
  | rdwordG (g : Nat)
  | merge (a d : Nat)
  | mergeG (g d : Nat)
deriving DecidableEq, Repr

/-- `o0·256³ + o1·256² + o2·256 + o3`, most significant octet first, exact (R73, R112, R113). -/
def ipv4Value (o0 o1 o2 o3 : Nat) : Nat := 256 ^ 3 * o0 + 256 ^ 2 * o1 + 256 * o2 + o3

/-- RDWORD a and MERGE a, d take a in [0, 2^32 - 1] and d in [0, 2^64 - 1] (R72). -/
def assembleMerge (a d : Nat) : Except AsmError Instr :=
  if a < 2 ^ 32 ∧ d < 2 ^ 64 then .ok (.merge (BitVec.ofNat 32 a) (BitVec.ofNat 64 d)) else .error .outOfRange

/-- The command a line stands for (R72, R73). -/
def assembleLine : AsmLine → Except AsmError Instr
  | .construct => .ok .construct
  | .register v => if v < 2 ^ 32 then .ok (.register (BitVec.ofNat 32 v)) else .error .outOfRange
  | .registerIp o0 o1 o2 o3 =>
    if o0 < 256 ∧ o1 < 256 ∧ o2 < 256 ∧ o3 < 256 then .ok (.register (BitVec.ofNat 32 (ipv4Value o0 o1 o2 o3)))
    else .error .octetOutOfRange
  | .count => .ok .count
  | .rdword a => if a < 2 ^ 32 then .ok (.rdword (BitVec.ofNat 32 a)) else .error .outOfRange
  | .rdwordG g => if g < 2 ^ 26 then .ok (.rdword (BitVec.ofNat 32 (g * 64))) else .error .outOfRange
  | .merge a d => assembleMerge a d
  | .mergeG g d => if g < 2 ^ 26 then assembleMerge (g * 64) d else .error .outOfRange

/-- The value of a digit: 0 to 9, A to F, a to f. -/
def digitValue (c : Char) : Option Nat :=
  let n := c.toNat
  if 48 ≤ n ∧ n ≤ 57 then some (n - 48)
  else if 65 ≤ n ∧ n ≤ 70 then some (n - 55)
  else if 97 ≤ n ∧ n ≤ 102 then some (n - 87)
  else none

/-- Digits of the base, read on from `acc`. -/
def digitsFrom (base : Nat) : Nat → List Char → Option Nat
  | acc, [] => some acc
  | acc, c :: cs =>
    match digitValue c with
    | none => none
    | some k => if k < base then digitsFrom base (acc * base + k) cs else none

/-- A run of at least one digit of the base. -/
def parseDigits (base : Nat) : List Char → Option Nat
  | [] => none
  | c :: cs => digitsFrom base 0 (c :: cs)

/-- A number is decimal, or hexadecimal with 0x; underscores may group digits (R72). -/
def parseNumber (cs : List Char) : Option Nat :=
  match cs with
  | '0' :: 'x' :: hex => parseDigits 16 (hex.filter (· != '_'))
  | _ => parseDigits 10 (cs.filter (· != '_'))

/-- The segments of a text between the occurrences of a separator. -/
def splitAtChar (sep : Char) : List Char → List (List Char)
  | [] => [[]]
  | c :: cs =>
    if c = sep then [] :: splitAtChar sep cs
    else
      match splitAtChar sep cs with
      | [] => [[c]]
      | seg :: segs => (c :: seg) :: segs

/-- The operands of a line, separated by a comma and a space (R72). -/
def operandTexts (cs : List Char) : Option (List (List Char)) :=
  match splitAtChar ',' cs with
  | [] => some []
  | first :: rest =>
    (rest.mapM fun seg =>
      match seg with
      | ' ' :: text => some text
      | _ => none).map fun texts => first :: texts

/-- The operands of a line as numbers. -/
def numberOperands (cs : List Char) : Except AsmError (List Nat) :=
  match operandTexts cs with
  | none => .error .notANumber
  | some texts =>
    match texts.mapM parseNumber with
    | none => .error .notANumber
    | some ns => .ok ns

/-- The four octets of REGISTER.IP, plain decimal numbers (R73). DESIGN CHOICE (notes/assumptions/12.md): an octet may have
leading zeros and is then the value its digits write; the spec does not say whether a plain decimal octet may (N12). -/
def octetOperands (cs : List Char) : Except AsmError AsmLine :=
  match (splitAtChar '.' cs).mapM (parseDigits 10) with
  | some [o0, o1, o2, o3] => .ok (.registerIp o0 o1 o2 o3)
  | some _ => .error .unknownLine
  | none => .error .notANumber

/-- A line that takes one number. -/
def oneNumber (f : Nat → AsmLine) (cs : List Char) : Except AsmError AsmLine :=
  match numberOperands cs with
  | .ok [n] => .ok (f n)
  | .ok _ => .error .unknownLine
  | .error e => .error e

/-- A line that takes two numbers. -/
def twoNumbers (f : Nat → Nat → AsmLine) (cs : List Char) : Except AsmError AsmLine :=
  match numberOperands cs with
  | .ok [n, k] => .ok (f n k)
  | .ok _ => .error .unknownLine
  | .error e => .error e

/-- Blanks at both ends taken off (notes/assumptions/12.md). -/
def trimBlanks (cs : List Char) : List Char :=
  ((cs.dropWhile (· == ' ')).reverse.dropWhile (· == ' ')).reverse

/-- A line without its comment, which runs from # to the end of the line (R72), and without blanks at its ends. -/
def lineBody (cs : List Char) : List Char := trimBlanks (cs.takeWhile (· != '#'))

/-- The operand of the spelling register(v) (R73). -/
def registerCall (body : List Char) : Option (List Char) :=
  let head := "register(".toList
  if head.isPrefixOf body && body.getLast? == some ')' then some ((body.drop head.length).dropLast) else none

/-- One line of text: an assembly line, or nothing where only blanks and a comment stand (R72, R73;
notes/assumptions/12.md). -/
def parseLine (cs : List Char) : Except AsmError (Option AsmLine) :=
  let body := lineBody cs
  let mnemonic := body.takeWhile (· != ' ')
  let operands := (body.dropWhile (· != ' ')).drop 1
  if body = [] then .ok none
  else if body = "CONSTRUCT".toList ∨ body = "construct()".toList then .ok (some .construct)
  else if body = "COUNT".toList ∨ body = "count()".toList then .ok (some .count)
  else if mnemonic = "REGISTER".toList then (oneNumber .register operands).map some
  else if mnemonic = "REGISTER.IP".toList then (octetOperands operands).map some
  else if mnemonic = "RDWORD".toList then (oneNumber .rdword operands).map some
  else if mnemonic = "RDWORD.G".toList then (oneNumber .rdwordG operands).map some
  else if mnemonic = "MERGE".toList then (twoNumbers .merge operands).map some
  else if mnemonic = "MERGE.G".toList then (twoNumbers .mergeG operands).map some
  else
    match registerCall body with
    | some v => (oneNumber .register v).map some
    | none => .error .unknownLine

/-- A program text, one command a line, as the command words the host sends top to bottom (R72, R75). -/
def assemble : List (List Char) → Except AsmError (List CommandWord)
  | [] => .ok []
  | line :: rest =>
    match parseLine line with
    | .error e => .error e
    | .ok none => assemble rest
    | .ok (some l) =>
      match assembleLine l, assemble rest with
      | .ok i, .ok ws => .ok (encode i :: ws)
      | .error e, _ => .error e
      | .ok _, .error e => .error e

/-- The name of a status (R64, R74). -/
def Status.text : Status → List Char
  | .done => "DONE".toList
  | .new => "NEW".toList
  | .present => "PRESENT".toList
  | .notReady => "NOTREADY".toList
  | .illegal => "ILLEGAL".toList

/-- A response as NAME, or NAME q when q is not 0 (R74); none for a status code the unit never produces (R64). DESIGN
CHOICE (notes/assumptions/12.md): q is written in decimal, where R74 allows decimal or hexadecimal. -/
def responseText (rw : ResponseWord) : Option (List Char) :=
  match Status.ofCode (stField rw) with
  | none => none
  | some st => some (if qField rw = 0 then st.text else st.text ++ ' ' :: Nat.toDigits 10 (qField rw).toNat)

/-- A hexadecimal digit, in capitals. -/
def hexDigit (k : Nat) : Char := if k < 10 then Char.ofNat (48 + k) else Char.ofNat (55 + k)

/-- `0x` and that many hexadecimal digits. -/
def hexText (digits n : Nat) : List Char :=
  '0' :: 'x' :: (List.range digits).reverse.map fun k => hexDigit (n / 16 ^ k % 16)

/-- A command word in hexadecimal, 25 digits (R72). -/
def commandWordText (cw : CommandWord) : List Char := hexText 25 cw.toNat

/-- A response word in hexadecimal, 17 digits (R74). -/
def responseWordText (rw : ResponseWord) : List Char := hexText 17 rw.toNat

end Sys2Proof.Machine
end

