-- ==== Sys2Proof/Machine/HostSide.lean ====
section
/-! DEFINITION. The software around the unit that produces its commands: the address codec and the counting pass
(49_host_codec_and_driver.md R110 to R119). It is outside the unit (00_scope.md R3): `step` does not use it. -/

namespace Sys2Proof.Machine

/-- Why a line does not decode (R114, R115, R124). -/
inductive FormatError where
  /-- Fewer or more than four segments (R114). -/
  | segmentCount
  /-- A segment is no base-10 non-negative integer (R111, R114). -/
  | notAnInteger
  /-- An octet outside [0, 255], which the host must reject (R115, D18). -/
  | octetRange
deriving DecidableEq, Repr

/-- A run of decimal digits with no leading zero: read the same by every base-10 parser. -/
def plainDecimal (seg : List Char) : Bool :=
  match seg with
  | [] => false
  | c :: cs => (c :: cs).all (fun x => decide (48 ≤ x.toNat ∧ x.toNat ≤ 57)) && (c != '0' || cs.isEmpty)

/-- A blank inside a line: a space, a tab, a vertical tab or a form feed. -/
def isBlank (x : Char) : Bool := [32, 9, 11, 12].contains x.toNat

/-- A segment at an edge that N12 names, taken apart. -/
structure EdgeSegment where
  /-- It has a leading `-`. -/
  negative : Bool
  /-- Its runs of digits, with the blanks between them left out; none for the empty segment. -/
  runs : List (List Char)
deriving DecidableEq, Repr

/-- The pieces of a text between its blanks. -/
def pieces (cs : List Char) : List (List Char) :=
  (splitAtChar ' ' (cs.map fun x => if isBlank x then ' ' else x)).filter (· != [])

/-- The runs of digits of a text of digits and blanks. -/
def digitRuns (cs : List Char) : Option (List (List Char)) :=
  if (pieces cs).all fun run => (parseDigits 10 run).isSome then some (pieces cs) else none

/-- The text after a sign, which needs a digit. -/
def afterSign (negative : Bool) (cs : List Char) : Option EdgeSegment :=
  match digitRuns cs with
  | some (run :: runs) => some ⟨negative, run :: runs⟩
  | _ => none

/-- A segment whose reading the document does not state (N12): empty, leading zeros, a leading sign, blanks inside, a
carriage return at the end of the line. A sign or a carriage return elsewhere is no such edge: the segment is no
base-10 integer (R111; notes/assumptions/13.md). -/
def edgeSegment (endsLine : Bool) (seg : List Char) : Option EdgeSegment :=
  let body := if endsLine && seg.getLast? == some '\r' then seg.dropLast else seg
  match body.dropWhile isBlank with
  | '+' :: cs => afterSign false cs
  | '-' :: cs => afterSign true cs
  | cs => (digitRuns cs).map fun runs => ⟨false, runs⟩

/-- The non-negative base-10 integer of such a segment, if the parser accepts it. `choice` is `none` where it does not,
else how far past the first run of digits it reads; with one run the value is the one its digits write. A negative
number is never one (R111, R114). No digits read as 0 (notes/assumptions/13.md). -/
def edgeValue (choice : Option Nat) (e : EdgeSegment) : Option Nat :=
  match choice with
  | none => none
  | some further =>
    match digitsFrom 10 0 (e.runs.take (further + 1)).flatten with
    | none => none
    | some n => if e.negative && n != 0 then none else some n

/-- A segment as a base-10 non-negative integer (R111); `endsLine` says that it is the last of its line. What is no
such integer fails; whether an edge that N12 names is accepted is free (notes/assumptions/13.md). -/
def segmentValue (endsLine : Bool) (seg : List Char) : Option Nat :=
  if plainDecimal seg then parseDigits 10 seg
  else
    match edgeSegment endsLine seg with
    | none => none
    | some e => edgeValue (Config.octetEdge seg) e

/-- The address codec: dotted-decimal text to an address value, or a failure (R110 to R115). A pure function. -/
def decodeAddress (line : List Char) : Except FormatError AddressValue :=
  match splitAtChar '.' line with
  | [s0, s1, s2, s3] =>
    match segmentValue false s0, segmentValue false s1, segmentValue false s2, segmentValue true s3 with
    | some o0, some o1, some o2, some o3 =>
      if o0 < 256 ∧ o1 < 256 ∧ o2 < 256 ∧ o3 < 256 then .ok (BitVec.ofNat 32 (ipv4Value o0 o1 o2 o3))
      else .error .octetRange
    | _, _, _, _ => .error .notAnInteger
  | _ => .error .segmentCount

/-- The address values of the lines that decode, in file order (R117, R118). -/
def decodedLines : List (List Char) → List AddressValue
  | [] => []
  | line :: rest =>
    match decodeAddress line with
    | .ok v => v :: decodedLines rest
    | .error _ => decodedLines rest

/-- The commands of one counting pass (R117 to R119): CONSTRUCT; REGISTER for every line that decodes, in file order;
COUNT after the last line. DESIGN CHOICE (notes/assumptions/18.md): after a file error, where R119 lets the host either
send no COUNT or discard its result, this host sends no COUNT; and it sends CONSTRUCT before it opens the file, which the
spec does not order, so that a file that cannot be opened (no lines, `fileError`) leaves a pass of CONSTRUCT alone. -/
def countingPass (lines : List (List Char)) (fileError : Bool) : List CommandWord :=
  encode .construct :: (decodedLines lines).map (fun v => encode (.register v)) ++
    (if fileError then [] else [encode .count])

/-- The diagnostic entries of a pass: one per malformed line, one for a file error (R118, R123). -/
def diagnostics (lines : List (List Char)) (fileError : Bool) : Nat :=
  (lines.length - (decodedLines lines).length) + (if fileError then 1 else 0)

end Sys2Proof.Machine
end

