-- ==== Sys2Proof/Machine/Shards.lean ====
section
/-! DEFINITION. The spec's own form of a step, command word in and response word out (00_scope.md R8), and several
units side by side with the host's procedure that merges one into another (43_merge_extension.md R105 to R107). -/

namespace Sys2Proof.Machine

/-- `step(S, C) = (S', RW)` (R8): the host presents one command word and takes the response to it. -/
def transact (cw : CommandWord) (s : State) : Option (State × ResponseWord) :=
  match step (present cw s) with
  | .next t =>
    match t.rsps.getLast? with
    | some rw => some (t, rw)
    | none => none
  | .fault _ => none
  | .refused _ => none

/-- The operand `g * 64` that names the word of global index g (R73, R106). -/
def wordAddress (g : GlobalIndex) : AddressValue := (g ++ 0#6).cast (by decide)

/-- One round of R106 for the word g: RDWORD to B, then MERGE of what it answered to A. DESIGN CHOICE
(notes/assumptions/19.md): the MERGE is sent also when the answer is 0, where R106 lets the host skip it. -/
def mergeWord (g : GlobalIndex) (a b : State) : Option (State × State) :=
  match transact (encode (.rdword (wordAddress g))) b with
  | none => none
  | some (b', rw) =>
    match transact (encode (.merge (wordAddress g) (qField rw))) a with
    | none => none
    | some (a', _) => some (a', b')

/-- The host merges the words `gs` of unit B into unit A, in that order (R106); answers A and B afterwards. A word left
off `gs` gets neither RDWORD nor MERGE (notes/assumptions/19.md). -/
def mergeUnits : List GlobalIndex → State → State → Option (State × State)
  | [], a, b => some (a, b)
  | g :: gs, a, b =>
    match mergeWord g a b with
    | none => none
    | some (a', b') => mergeUnits gs a' b'

/-- Several units side by side (R107): unit k takes one step. Which unit steps next is the hosts' choice. -/
def stepUnit (k : Nat) (units : List State) : Option (List State) :=
  match units[k]? with
  | none => none
  | some s =>
    match step s with
    | .next t => some (units.set k t)
    | .fault _ => none
    | .refused _ => none

end Sys2Proof.Machine
end

