-- ==== Sys2Proof/Safety.lean ====
section
/-! DEFINITION. The terms the claims are stated in: the abstract view (10_state.md R23), the invariants (R17 to R19),
the commands of a counting pass (R18), and the parts of the state a frame speaks of. -/

namespace Sys2Proof.Machine

/-- `Members(S)`, the set of p in [0, 2^32 - 1] whose bit is 1 (R23). -/
def members (s : State) : Finset Nat :=
  (Finset.range Config.totalBits).filter fun p => bitTest (BitVec.ofNat 32 p) s

/-- The logical positions a MERGE of `d` at `a` stands for: `g * 64 + i` for every bit i of d (R102, R104). -/
def mergeSet (a : AddressValue) (d : BitmapWord) : Finset Nat :=
  ((Finset.range 64).filter fun i => d.getLsbD i).image fun i => (globalOf a).toNat * 64 + i

/-- The state is one the spec's rules keep: the store is in canonical form, and a constructed unit holds defined
contents (R17) whose population count `COUNT` is (R19). -/
structure State.Inv (s : State) : Prop where
  /-- The store is in canonical form. -/
  wf : Memory.wf s = true
  /-- `READY` = 1 means that CONSTRUCT has completed since the last reset (R17). -/
  defined : s.ready = true → s.lo.background = .zero ∧ s.hi.background = .zero
  /-- The count invariant (R19). -/
  counted : s.ready = true → s.count.toNat = s.lo.popCount + s.hi.popCount

/-- The four elements of R10 are the same in both states. -/
def sameUnit (s t : State) : Prop := t.lo = s.lo ∧ t.hi = s.hi ∧ t.count = s.count ∧ t.ready = s.ready

/-- What no command touches: the parameter, the command port and the counter of the free values. -/
def samePort (s t : State) : Prop := t.extM = s.extM ∧ t.inputs = s.inputs ∧ t.draws = s.draws

/-- The abstract view of the unit (R23): nothing before CONSTRUCT, then the set of members. -/
def abstractView (s : State) : Option (Finset Nat) := if s.ready then some (members s) else none

/-- The commands on the abstract view (R23, R90, R104): the set afterwards, the status and the data of the response.
CONSTRUCT makes the set empty, REGISTER inserts and reports membership, COUNT is the size. -/
def abstractCommand : Instr → Option (Finset Nat) → Option (Finset Nat) × Status × Nat
  | .construct, _ => (some ∅, .done, 0)
  | .register _, none => (none, .notReady, 0)
  | .register v, some m => if v.toNat ∈ m then (some m, .present, 0) else (some (insert v.toNat m), .new, 0)
  | .count, none => (none, .notReady, 0)
  | .count, some m => (some m, .done, m.card)
  | .rdword _, none => (none, .notReady, 0)
  | .rdword a, some m => (some m, .done, ∑ i ∈ Finset.range 64, if (globalOf a).toNat * 64 + i ∈ m then 2 ^ i else 0)
  | .merge _ _, none => (none, .notReady, 0)
  | .merge a d, some m => (some (m ∪ mergeSet a d), .done, (mergeSet a d \ m).card)

/-- The command marks the logical position p present (R18). -/
def marks (p : Nat) : Instr → Bool
  | .construct => false
  | .register v => decide (v.toNat = p)
  | .count => false
  | .rdword _ => false
  | .merge a d => decide (p ∈ mergeSet a d)

/-- The commands completed since the last CONSTRUCT, none when there was no CONSTRUCT since reset (glossary, Counting
pass; R17, R18). -/
def passStep (extM : Bool) (pass : Option (List Instr)) : Input → Option (List Instr)
  | .command cw =>
    match decode extM cw with
    | .ok .construct => some []
    | .ok (.register v) => pass.map (· ++ [.register v])
    | .ok .count => pass.map (· ++ [.count])
    | .ok (.rdword a) => pass.map (· ++ [.rdword a])
    | .ok (.merge a d) => pass.map (· ++ [.merge a d])
    | .error _ => pass
  | .reset => none
  | .resetDuring _ => none

/-- The commands of the current pass after a list of inputs that starts on a unit not constructed. -/
def passOf (extM : Bool) (inputs : List Input) : Option (List Instr) := inputs.foldl (passStep extM) none

/-- What one answered command adds to `COUNT` (R97): 1 for a REGISTER answered NEW, q for a MERGE answered DONE. -/
def contribution (extM : Bool) (cw : CommandWord) (rw : ResponseWord) : Nat :=
  match decode extM cw with
  | .ok .construct => 0
  | .ok (.register _) => if stField rw = Status.new.code then 1 else 0
  | .ok .count => 0
  | .ok (.rdword _) => 0
  | .ok (.merge _ _) => if stField rw = Status.done.code then (qField rw).toNat else 0
  | .error _ => 0

/-- What the host and the commands can tell apart (R9, R24): the planes and `COUNT` only of a constructed unit. -/
def sameVisible (s t : State) : Prop :=
  t.ready = s.ready ∧ t.extM = s.extM ∧ t.inputs = s.inputs ∧ t.rsps = s.rsps ∧
    (s.ready = true → t.lo = s.lo ∧ t.hi = s.hi ∧ t.count = s.count)

/-- The input is a command that decodes to CONSTRUCT. -/
def isConstruct (extM : Bool) : Input → Bool
  | .command cw => decide (decode extM cw = .ok .construct)
  | .reset => false
  | .resetDuring _ => false

/-- The input asserts reset (R150, R152). -/
def isReset : Input → Bool
  | .command _ => false
  | .reset => true
  | .resetDuring _ => true

end Sys2Proof.Machine
end

