-- ==== Sys2Proof/Certificates/Slice0/Obligations.lean ====
section
/-! DEFINITION. The statements for the provers, each from numbered rules of spec/. Where a statement has the premise
`Memory.wf s` or `s.Inv`, it could fail only in states no run reaches; `ResetHasInv` and `StepKeepsInv` say that the
premise holds at reset and is kept. -/

open Sys2Proof Sys2Proof.Machine

/-! ### Encoding -/

/-- Decode and encode agree: for every instruction a unit has, at every value of its operands, the decoder reads the
canonical word back (R61, R63, R65, R72). -/
def Obligations.DecodeOfEncodeIsIdentity : Prop :=
  ∀ (extM : Bool) (i : Instr), wellFormed extM i = true → decode extM (encode i) = .ok i

/-- The other direction: whatever word decodes, the canonical word of the instruction agrees with it in `op` and in
every field the instruction uses (R61, R65, R66). -/
def Obligations.EncodeOfDecodeKeepsUsedFields : Prop :=
  ∀ (extM : Bool) (cw : CommandWord) (i : Instr), decode extM cw = .ok i →
    wellFormed extM i = true ∧ opField (encode i) = opField cw ∧
      (i ≠ .construct → i ≠ .count → aField (encode i) = aField cw) ∧
      (∀ a d, i = .merge a d → dField (encode i) = dField cw)

/-- Decoding is total, and refuses exactly the reserved opcodes and, without extension M, its two (R65, R67, R68). -/
def Obligations.DecodeRefusesExactlyReservedOpcodes : Prop :=
  ∀ (extM : Bool) (cw : CommandWord),
    (∃ e, decode extM cw = .error e) ↔
      opField cw = 0x0 ∨ 0x6 ≤ (opField cw).toNat ∨ (extM = false ∧ (opField cw = 0x4 ∨ opField cw = 0x5))

/-- Fields a command does not use are ignored: the step does not depend on them; RDWORD and MERGE use only a[31:6];
the encoder writes 0 in every ignored field (R66). -/
def Obligations.UnusedFieldsAreIgnored : Prop :=
  (∀ (s : State) (op : Opcode) (a a' : AddressValue) (d d' : BitmapWord),
    ((op = 0x1 ∨ op = 0x3) → step (present (commandWord op a d) s) = step (present (commandWord op a' d') s)) ∧
    (op = 0x2 → step (present (commandWord op a d) s) = step (present (commandWord op a d') s)) ∧
    (op = 0x4 → globalOf a = globalOf a' →
      step (present (commandWord op a d) s) = step (present (commandWord op a' d') s)) ∧
    (op = 0x5 → globalOf a = globalOf a' →
      step (present (commandWord op a d) s) = step (present (commandWord op a' d) s))) ∧
  ∀ i : Instr, (i = .construct ∨ i = .count → aField (encode i) = 0) ∧
    ((∀ a d, i ≠ .merge a d) → dField (encode i) = 0)

/-- The decoder agrees with the opcode table: what decodes is selected by its own row and by no other, and a word that
is refused is selected at most by a row of an extension the unit does not have (R63). -/
def Obligations.OpcodeTableSelectsWhatDecodes : Prop :=
  ∀ (extM : Bool) (cw : CommandWord),
    (∀ i, decode extM cw = .ok i → (opcodeTable.filter fun r => r.selects cw).map (·.mnemonic) = [i.mnemonic]) ∧
    (∀ e, decode extM cw = .error e → ∀ r ∈ opcodeTable, r.selects cw = true → r.extension = true ∧ extM = false)

/-- Words of 95_test_vectors.md decode to the commands they stand for. -/
def Obligations.WordsOfTheSpecDecode : Prop :=
  decode false 0x1000000070000000000000009 = .ok .construct ∧
  decode false 0x2C0A801010000000000000000 = .ok (.register 0xC0A80101) ∧
  decode false 0x3FFFFFFFF0000000000000001 = .ok .count ∧
  decode true 0x40A0000000000000000000000 = .ok (.rdword 0x0A000000) ∧
  decode true 0x500000040FFFFFFFFFFFFFFFF = .ok (.merge 0x40 0xFFFFFFFFFFFFFFFF) ∧
  decode false 0x40A0000000000000000000000 = .error (.extensionAbsent 0x4) ∧
  decode true 0x7000000050000000000000000 = .error (.reservedOpcode 0x7)

/-- The response word is `st * 2^64 + q`, and its two fields are read back from it (R62). -/
def Obligations.ResponseWordCarriesStatusAndData : Prop :=
  ∀ (st : Status) (q : BitmapWord),
    (responseWord st q).toNat = st.code.toNat * 2 ^ 64 + q.toNat ∧
      stField (responseWord st q) = st.code ∧ qField (responseWord st q) = q

/-! ### The step -/

/-- A step runs the decoded command: the oldest input is taken off the port and, if it is a command word that decodes,
`exec` runs it. `withFetchWord` makes a table word that oldest input. The list of inputs and the form of a table word are
the model's choice (DESIGN CHOICE, log 1 and 10). -/
def Obligations.StepRunsTheDecodedCommand : Prop :=
  (∀ (s : State) (cw : CommandWord) (rest : List Input) (i : Instr), s.inputs = .command cw :: rest →
    decode s.extM cw = .ok i → step s = exec i { s with inputs := rest }) ∧
  ∀ (s : State) (nbits w : Nat) (cw : CommandWord) (i : Instr), tableCommandWord nbits w = some cw →
    decode s.extM cw = .ok i → step (s.withFetchWord nbits w) = exec i s

/-- Every command and every step answers a next state: nothing faults, nothing is refused (R8, R162). -/
def Obligations.EveryStepAnswersANextState : Prop :=
  (∀ (i : Instr) (s : State), ∃ t, exec i s = .next t) ∧ ∀ s : State, ∃ t, step s = .next t

/-- Between commands the unit waits with all state held (R143). That waiting is a step on an empty list of inputs is the
model's choice (DESIGN CHOICE, log 1). -/
def Obligations.WaitingUnitHoldsItsState : Prop :=
  ∀ s : State, s.inputs = [] → step s = .next s

/-- ILLEGAL: a word with a reserved opcode, whatever `a`, `d` and `READY` are, changes no state element and is answered
`st` = 0xF, `q` = 0; no other word is answered so (R67, R131). -/
def Obligations.ReservedOpcodeIsAnsweredIllegal : Prop :=
  ∀ (s : State) (op : Opcode) (a : AddressValue) (d : BitmapWord),
    ((op = 0x0 ∨ 0x6 ≤ op.toNat ∨ (s.extM = false ∧ (op = 0x4 ∨ op = 0x5))) →
      ∃ t, step (present (commandWord op a d) s) = .next t ∧ sameUnit s t ∧ samePort s t ∧
        t.rsps = s.rsps ++ [0xF0000000000000000]) ∧
    (¬(op = 0x0 ∨ 0x6 ≤ op.toNat ∨ (s.extM = false ∧ (op = 0x4 ∨ op = 0x5))) →
      ∀ t, step (present (commandWord op a d) s) = .next t → t.rsps ≠ s.rsps ++ [0xF0000000000000000])

/-- NOTREADY: REGISTER, COUNT and, on a unit that has them, RDWORD and MERGE, while `READY` = 0, change no state
element and are answered `st` = 0xE, `q` = 0, which depends on no word of the bitmap and not on `COUNT`; CONSTRUCT is
never answered so, nor is any command while `READY` = 1 (R86, R96, R132). -/
def Obligations.CommandsBeforeConstructAreNotReady : Prop :=
  (∀ (s : State) (i : Instr), s.ready = false → i ≠ .construct → wellFormed s.extM i = true →
    ∃ t, exec i s = .next t ∧ sameUnit s t ∧ samePort s t ∧ t.rsps = s.rsps ++ [0xE0000000000000000]) ∧
  ∀ (s t : State) (i : Instr), (i = .construct ∨ s.ready = true) → exec i s = .next t →
    t.rsps ≠ s.rsps ++ [0xE0000000000000000]

/-- The meanings of RDWORD and MERGE, asked of a unit without extension M, answer ILLEGAL themselves whatever `READY` is,
and change nothing. This is the model's choice (DEDUCED, log 8): on such a unit no word decodes to either command (R65,
R68), so no step runs them; the spec's own rule, over words, is `ReservedOpcodeIsAnsweredIllegal`. -/
def Obligations.ExtensionCommandsNeedTheExtension : Prop :=
  ∀ (s : State) (a : AddressValue) (d : BitmapWord), s.extM = false →
    (∃ t, exec (.rdword a) s = .next t ∧ sameUnit s t ∧ samePort s t ∧ t.rsps = s.rsps ++ [0xF0000000000000000]) ∧
    (∃ t, exec (.merge a d) s = .next t ∧ sameUnit s t ∧ samePort s t ∧ t.rsps = s.rsps ++ [0xF0000000000000000])

/-- A host finds out whether the extension is present by RDWORD after CONSTRUCT: DONE if it is, ILLEGAL if not (R68). -/
def Obligations.HostDiscoversTheExtension : Prop :=
  ∀ (s : State) (a : AddressValue) (d : BitmapWord),
    ∃ t u, step (present (encode .construct) s) = .next t ∧ step (present (commandWord 0x4 a d) t) = .next u ∧
      u.rsps.getLast?.map stField = some (if s.extM then 0x0 else 0xF)

/-- Every accepted command gets exactly one response word, with one of the five status codes, and `q` = 0 unless the
status is DONE; reset gets none (R64, R152, R157). That the responses already delivered stay listed is the model's choice (DESIGN CHOICE,
log 2). -/
def Obligations.OneResponsePerCommand : Prop :=
  ∀ (s t : State) (i : Input) (rest : List Input), s.inputs = i :: rest → step s = .next t →
    t.inputs = rest ∧ t.extM = s.extM ∧
    (isReset i = true → t.rsps = s.rsps) ∧
    (isReset i = false → ∃ rw st, t.rsps = s.rsps ++ [rw] ∧ Status.ofCode (stField rw) = some st ∧
      (st ≠ .done → qField rw = 0))

/-- `READY` is set to 1 by CONSTRUCT and to 0 by reset and by nothing else (R17). -/
def Obligations.OnlyConstructAndResetWriteReady : Prop :=
  ∀ (s t : State) (i : Input) (rest : List Input), s.inputs = i :: rest → step s = .next t →
    (t.ready = true ↔ isConstruct s.extM i = true ∨ (s.ready = true ∧ isReset i = false))

/-! ### Reset -/

/-- Reset, between commands or inside one: `READY` = 0, no response, and each word of the planes and `COUNT` a free
value not drawn before (R24, R151, R152). The free values are the model's form of "unspecified" (DESIGN CHOICE, log 4
and 5): the statement fixes none of them. -/
def Obligations.ResetLeavesTheContentsUnspecified : Prop :=
  ∀ (s : State) (rest : List Input) (i : Input), isReset i = true → s.inputs = i :: rest →
    ∃ t, step s = .next t ∧ t.ready = false ∧ t.rsps = s.rsps ∧ t.inputs = rest ∧ t.extM = s.extM ∧
      (∀ j, wordRead .low j t = Config.unspecifiedWord s.draws j.toNat) ∧
      (∀ j, wordRead .high j t = Config.unspecifiedWord (s.draws + 1) j.toNat) ∧
      t.count = Config.unspecifiedCount (s.draws + 2) ∧ t.draws = s.draws + 3

/-- What power-on leaves, for either kind of unit: `READY` = 0 and unspecified contents (R24, R151); nothing arrived
and nothing answered (DESIGN CHOICE, log 1, 2, 4 and 5). -/
def Obligations.PowerOnState : Prop :=
  ∀ b : Bool, (State.resetFor b).ready = false ∧ (State.resetFor b).extM = b ∧
    (∀ i, wordRead .low i (State.resetFor b) = Config.unspecifiedWord 0 i.toNat) ∧
    (∀ i, wordRead .high i (State.resetFor b) = Config.unspecifiedWord 1 i.toNat) ∧
    (State.resetFor b).count = Config.unspecifiedCount 2 ∧
    (State.resetFor b).inputs = [] ∧ (State.resetFor b).rsps = []

/-- Nothing the unit answers depends on an unspecified value: two runs on the same inputs, from states that differ only
in the contents of a unit not constructed and in which free values are next, deliver the same responses (R8, R24,
R132). -/
def Obligations.ResponsesDoNotDependOnUnspecifiedContents : Prop :=
  ∀ (n : Nat) (s s' : State), sameVisible s s' →
    ∃ t t', Host.Core.run core n s = .next t ∧ Host.Core.run core n s' = .next t' ∧ sameVisible t t'

/-! ### CONSTRUCT -/

/-- CONSTRUCT, from any state: every word 0, `COUNT` = 0, `READY` = 1, no members, the count invariant; answered DONE 0;
nothing else changes (R25). -/
def Obligations.ConstructGivesTheInitialState : Prop :=
  ∀ s : State, ∃ t, exec .construct s = .next t ∧
    (∀ k i, wordRead k i t = 0) ∧ t.count = 0 ∧ t.ready = true ∧
    members t = ∅ ∧ t.count.toNat = t.lo.popCount + t.hi.popCount ∧
    samePort s t ∧ t.rsps = s.rsps ++ [0x00000000000000000]

/-! ### REGISTER -/

/-- REGISTER of an address value whose bit is 0: the bit becomes 1, `COUNT` goes up by 1, NEW; no other bit and nothing
else changes (R85, R87, R91). -/
def Obligations.RegisterNewSetsTheBitAndCounts : Prop :=
  ∀ (s : State) (v : AddressValue), Memory.wf s = true → s.ready = true → bitTest v s = false →
    ∃ t, exec (.register v) s = .next t ∧ bitTest v t = true ∧ t.count = s.count + 1 ∧
      (∀ v', v' ≠ v → bitTest v' t = bitTest v' s) ∧
      (∀ k i, ¬(k = planeOf v ∧ i = widxOf v) → wordRead k i t = wordRead k i s) ∧
      t.ready = s.ready ∧ samePort s t ∧ t.rsps = s.rsps ++ [0x10000000000000000]

/-- REGISTER of an address value whose bit is 1: PRESENT, and no state changes (R85). -/
def Obligations.RegisterPresentChangesNothing : Prop :=
  ∀ (s : State) (v : AddressValue), s.ready = true → bitTest v s = true →
    ∃ t, exec (.register v) s = .next t ∧ sameUnit s t ∧ samePort s t ∧ t.rsps = s.rsps ++ [0x20000000000000000]

/-- Idempotence: a REGISTER v right after a REGISTER v changes nothing and is answered PRESENT; and so is any later one
of the same pass, whatever words other than CONSTRUCT lie between (R88). -/
def Obligations.RegisterTwiceCountsOnce : Prop :=
  (∀ (s : State) (v : AddressValue), Memory.wf s = true → s.ready = true →
    ∃ t u, exec (.register v) s = .next t ∧ exec (.register v) t = .next u ∧ sameUnit t u ∧
      u.rsps = t.rsps ++ [0x20000000000000000]) ∧
  ∀ (s : State) (v : AddressValue) (between : List CommandWord), Memory.wf s = true → s.ready = true →
    (∀ cw ∈ between, decode s.extM cw ≠ .ok .construct) →
    s.inputs = .command (encode (.register v)) :: between.map .command ++ [.command (encode (.register v))] →
    ∃ t, Host.Core.run core (between.length + 2) s = .next t ∧ t.rsps.getLast? = some 0x20000000000000000

/-- Frame of REGISTER, whatever it is answered: no word but the word of v, no bit of that word but the bit of v, never
`READY`; every other address value tests as before (R91). -/
def Obligations.RegisterFrame : Prop :=
  ∀ (s t : State) (v : AddressValue), Memory.wf s = true → exec (.register v) s = .next t →
    (∀ k i, ¬(k = planeOf v ∧ i = widxOf v) → wordRead k i t = wordRead k i s) ∧
    (∀ j, j ≠ (offOf v).toNat → (wordOf v t).getLsbD j = (wordOf v s).getLsbD j) ∧
    t.ready = s.ready ∧ (∀ v', v' ≠ v → bitTest v' t = bitTest v' s) ∧ samePort s t

/-! ### COUNT and RDWORD -/

/-- COUNT on a constructed unit: DONE with the 33-bit `COUNT` zero-extended; no state is written (R95). -/
def Obligations.CountAnswersTheRunningCount : Prop :=
  ∀ s : State, s.ready = true →
    ∃ t rw, exec .count s = .next t ∧ sameUnit s t ∧ samePort s t ∧ t.rsps = s.rsps ++ [rw] ∧
      stField rw = 0x0 ∧ (qField rw).toNat = s.count.toNat ∧ (qField rw) >>> 33 = 0

/-- RDWORD a on a constructed unit with extension M: DONE with the word that holds the bit of a, bit i of which is 1
exactly when the address value `a[31:6] * 64 + i` is a member; no state is written (R101). -/
def Obligations.RdwordAnswersTheWord : Prop :=
  ∀ (s : State) (a : AddressValue), s.extM = true → s.ready = true →
    ∃ t rw, exec (.rdword a) s = .next t ∧ sameUnit s t ∧ samePort s t ∧ t.rsps = s.rsps ++ [rw] ∧
      stField rw = 0x0 ∧ qField rw = wordRead (planeOf a) (widxOf a) s ∧
      ∀ i < 64, ((qField rw).getLsbD i = true ↔ (globalOf a).toNat * 64 + i ∈ members s)

/-- Frame of COUNT and RDWORD, whatever they are answered: no state element changes, so every word reads as before
(R53, R95, R101). -/
def Obligations.CountAndRdwordWriteNothing : Prop :=
  ∀ (s t : State) (i : Instr), (i = .count ∨ ∃ a, i = .rdword a) → exec i s = .next t →
    sameUnit s t ∧ samePort s t ∧ ∀ k j, wordRead k j t = wordRead k j s

/-! ### MERGE -/

/-- MERGE a, d on a constructed unit with extension M: the word that holds the bit of a is ORed with d, `COUNT` grows by
the number of bits this turned from 0 to 1, DONE with that number; no other word and nothing else changes (R102). -/
def Obligations.MergeOrsTheWordAndCounts : Prop :=
  ∀ (s : State) (a : AddressValue) (d : BitmapWord), Memory.wf s = true → s.extM = true → s.ready = true →
    ∃ t rw, exec (.merge a d) s = .next t ∧
      wordOf a t = wordOf a s ||| d ∧
      (∀ k i, ¬(k = planeOf a ∧ i = widxOf a) → wordRead k i t = wordRead k i s) ∧
      t.count = s.count + BitVec.ofNat 33 (popcount64 (d &&& ~~~wordOf a s)) ∧
      t.ready = s.ready ∧ samePort s t ∧ t.rsps = s.rsps ++ [rw] ∧
      stField rw = 0x0 ∧ (qField rw).toNat = popcount64 (d &&& ~~~wordOf a s) ∧ (qField rw).toNat ≤ 64

/-- The aggregator of MERGE, on a constructed unit with extension M: what MERGE adds to `COUNT`, and answers as `q`, is
exactly the growth of the population count of the word that changed, and is the number of its bits that went from 0 to
1 (R103). The additions to `COUNT` are on 33 bits; `CountNeverWraps` states that they do not wrap. -/
def Obligations.MergeAddsTheGrowthOfTheWord : Prop :=
  ∀ (s : State) (a : AddressValue) (d : BitmapWord), Memory.wf s = true → s.extM = true → s.ready = true →
    ∃ t rw, exec (.merge a d) s = .next t ∧ t.rsps = s.rsps ++ [rw] ∧
      t.count + BitVec.ofNat 33 (popcount64 (wordOf a s)) = s.count + BitVec.ofNat 33 (popcount64 (wordOf a t)) ∧
      (qField rw).toNat + popcount64 (wordOf a s) = popcount64 (wordOf a t) ∧ popcount64 (wordOf a t) ≤ 64 ∧
      (qField rw).toNat =
        ((Finset.range 64).filter fun i => (wordOf a t).getLsbD i = true ∧ (wordOf a s).getLsbD i = false).card

/-- Frame of MERGE, whatever it is answered: no word but the word that holds the bit of a, never `READY` (R53, R102). -/
def Obligations.MergeFrame : Prop :=
  ∀ (s t : State) (a : AddressValue) (d : BitmapWord), Memory.wf s = true → exec (.merge a d) s = .next t →
    (∀ k i, ¬(k = planeOf a ∧ i = widxOf a) → wordRead k i t = wordRead k i s) ∧
    (∀ v, ¬(planeOf v = planeOf a ∧ widxOf v = widxOf a) → bitTest v t = bitTest v s) ∧
    t.ready = s.ready ∧ samePort s t

/-- MERGE of a word with one 1, at offset k, has the same effect on the state as REGISTER of `a[31:6] * 64 + k`
(R102). -/
def Obligations.MergeOfOneBitActsAsRegister : Prop :=
  ∀ (s : State) (a : AddressValue) (k : BitOffset), Memory.wf s = true → s.extM = true → s.ready = true →
    ∃ t u, exec (.merge a (maskOf k)) s = .next t ∧
      exec (.register (BitVec.ofNat 32 ((globalOf a).toNat * 64 + k.toNat))) s = .next u ∧ sameUnit t u

/-- REGISTERs and MERGEs commute and repeats do nothing: the planes and `COUNT` do not depend on their order; only the
responses may (R90, R104). -/
def Obligations.RegistersAndMergesCommute : Prop :=
  ∀ (s : State) (i j : Instr), Memory.wf s = true → s.ready = true →
    wellFormed s.extM i = true → wellFormed s.extM j = true →
    ((∃ v, i = .register v) ∨ ∃ a d, i = .merge a d) → ((∃ v, j = .register v) ∨ ∃ a d, j = .merge a d) →
    ∃ t u t' u' w, exec i s = .next t ∧ exec j t = .next u ∧ exec j s = .next t' ∧ exec i t' = .next u' ∧
      sameUnit u u' ∧ exec i t = .next w ∧ sameUnit t w

/-! ### The store and the index converter -/

/-- The slices of the converter are the document's arithmetic (R36, R37, R38, R39): plane, rebased position, word index,
offset and global word index of every address value. -/
def Obligations.ConverterSlicesAreTheArithmetic : Prop :=
  ∀ v : AddressValue, (planeOf v).num = planeByValue v ∧ (posOf v).toNat = posByValue v ∧
    (widxOf v).toNat = widxByValue v ∧ (offOf v).toNat = offByValue v ∧
    (globalOf v).toNat = v.toNat / 64 ∧ (globalOf v).toNat = (planeOf v).num * 2 ^ 25 + (widxOf v).toNat

/-- No access is out of bounds and no intermediate value needs more than 31 bits (R40). -/
def Obligations.ConverterIsAlwaysInBounds : Prop :=
  ∀ v : AddressValue, widxByValue v ≤ 2 ^ 25 - 1 ∧ offByValue v ≤ 63 ∧ posByValue v ≤ 2 ^ 31 - 1

/-- The converter is a bijection, `Place.position` is its inverse, and the four corners of the split lie where the rule
says (R32, R41). -/
def Obligations.ConverterIsABijection : Prop :=
  Function.Bijective placeOf ∧ (∀ v, (placeOf v).position = v.toNat) ∧
    (∀ p, placeOf (BitVec.ofNat 32 p.position) = p) ∧
    placeOf 0 = ⟨.low, 0, 0⟩ ∧ placeOf 0x7FFFFFFF = ⟨.low, 0x1FFFFFF, 63⟩ ∧
    placeOf 0x80000000 = ⟨.high, 0, 0⟩ ∧ placeOf 0xFFFFFFFF = ⟨.high, 0x1FFFFFF, 63⟩

/-- WordWrite makes the word equal to w and leaves every other word of both planes, `COUNT` and `READY` unchanged
(R45), and keeps the canonical form. -/
def Obligations.WordWriteChangesOneWord : Prop :=
  ∀ (s : State) (k : PlaneSelect) (i : WordIndex) (w : BitmapWord), Memory.wf s = true →
    wordRead k i (wordWrite k i w s) = w ∧
    (∀ k' i', ¬(k' = k ∧ i' = i) → wordRead k' i' (wordWrite k i w s) = wordRead k' i' s) ∧
    (wordWrite k i w s).count = s.count ∧ (wordWrite k i w s).ready = s.ready ∧
    Memory.wf (wordWrite k i w s) = true

/-- BitSet is the write of `w | (1 << off)`; it changes at most one bit, from 0 to 1, and nothing when the bit is 1
(R47). -/
def Obligations.BitSetChangesOneBit : Prop :=
  ∀ (s : State) (v : AddressValue), Memory.wf s = true →
    wordOf v (bitSet v s) = wordOf v s ||| (1#64 <<< (offOf v).toNat) ∧
    (∀ v', bitTest v' (bitSet v s) = (decide (v' = v) || bitTest v' s)) ∧
    (∀ k i, ¬(k = planeOf v ∧ i = widxOf v) → wordRead k i (bitSet v s) = wordRead k i s) ∧
    (bitTest v s = true → bitSet v s = s)

/-- Equal stores are equal data: two planes in canonical form, over the same background, whose words read the same are
the same (DESIGN CHOICE of the representation, log 6). -/
def Obligations.EqualPlanesAreEqualData : Prop :=
  ∀ p q : Plane, p.wf = true → q.wf = true → p.background = q.background →
    (∀ i, p.read i = q.read i) → p = q

/-! ### Invariants and whole-machine rules -/

/-- The invariant holds at power-on, for either kind of unit. -/
def Obligations.ResetHasInv : Prop :=
  (∀ b : Bool, (State.resetFor b).Inv) ∧ State.reset.Inv

/-- Every step keeps the invariant, whatever arrives: the canonical form of the store, defined contents when `READY` =
1 and `COUNT` equal to the number of set bits (R17, R19, R82, R87, R103). -/
def Obligations.StepKeepsInv : Prop :=
  ∀ s t : State, s.Inv → step s = .next t → t.Inv

/-- The bound on the count: `COUNT` ≤ 2^32, and neither REGISTER nor MERGE ever wraps it (R22). -/
def Obligations.CountNeverWraps : Prop :=
  ∀ s : State, s.Inv → s.ready = true → s.count.toNat ≤ 2 ^ 32 ∧
    (∀ v, bitTest v s = false → (s.count + 1).toNat = s.count.toNat + 1 ∧ s.count.toNat + 1 ≤ 2 ^ 32) ∧
    (∀ a d, (s.count + BitVec.ofNat 33 (popcount64 (d &&& ~~~wordOf a s))).toNat =
        s.count.toNat + popcount64 (d &&& ~~~wordOf a s) ∧
      s.count.toNat + popcount64 (d &&& ~~~wordOf a s) ≤ 2 ^ 32)

/-- `COUNT` is the number of elements of `Members` (R23, R48). -/
def Obligations.CountIsTheNumberOfMembers : Prop :=
  ∀ s : State, s.Inv → s.ready = true → s.count.toNat = (members s).card

/-- The whole contract: on the abstract view CONSTRUCT makes the set empty, REGISTER inserts and reports membership,
COUNT is the size, RDWORD shows 64 memberships and MERGE is a union; every response is the one the set gives (R23, R90,
R104). -/
def Obligations.CommandsRefineTheSetOfMembers : Prop :=
  ∀ (s : State) (i : Instr), s.Inv → wellFormed s.extM i = true →
    ∃ t, exec i s = .next t ∧ abstractView t = (abstractCommand i (abstractView s)).1 ∧
      t.rsps = s.rsps ++ [responseWord (abstractCommand i (abstractView s)).2.1
        (BitVec.ofNat 64 (abstractCommand i (abstractView s)).2.2)]

/-- The membership invariant, for every stream of inputs to a unit not yet constructed: the unit is ready exactly when a
pass is open, and the bit that stands for p is 1 exactly when a command of that pass marked p (R17, R18). -/
def Obligations.MembershipInvariant : Prop :=
  ∀ (s : State) (xs : List Input), Memory.wf s = true → s.ready = false → s.inputs = xs →
    ∃ t, Host.Core.run core xs.length s = .next t ∧ t.inputs = [] ∧
      (t.ready = true ↔ (passOf s.extM xs).isSome = true) ∧
      ∀ pass, passOf s.extM xs = some pass → ∀ p < 2 ^ 32,
        bitTest (BitVec.ofNat 32 p) t = pass.any (marks p)

/-- Monotonicity: no command but CONSTRUCT turns a bit from 1 to 0 or lowers `COUNT`, and CONSTRUCT clears all bits at
once (R21). -/
def Obligations.RegistrationIsMonotonic : Prop :=
  ∀ (s t : State) (cw : CommandWord) (rest : List Input), s.Inv → s.inputs = .command cw :: rest → step s = .next t →
    (decode s.extM cw ≠ .ok .construct →
      (∀ v, bitTest v s = true → bitTest v t = true) ∧ s.count.toNat ≤ t.count.toNat) ∧
    (decode s.extM cw = .ok .construct → ∀ v, bitTest v t = false)

/-- What COUNT stands for: over any stream of command words without CONSTRUCT, on a constructed unit, `COUNT` grows by
the number of NEW responses plus the sum of the `q` values of the MERGE responses (R97). -/
def Obligations.CountIsNewResponsesPlusMergedBits : Prop :=
  ∀ (s : State) (cws : List CommandWord), s.Inv → s.ready = true →
    (∀ cw ∈ cws, decode s.extM cw ≠ .ok .construct) → s.inputs = cws.map .command →
    ∃ t rws, Host.Core.run core cws.length s = .next t ∧ t.rsps = s.rsps ++ rws ∧ rws.length = cws.length ∧
      t.count.toNat = s.count.toNat + (List.zipWith (contribution s.extM) cws rws).sum

/-! ### Several units and the host -/

/-- Merging a whole bitmap: when the host has merged, in any order, at least every word of B that is not 0 into A, A
holds the union, `COUNT` of A is the size of the union, and B is unchanged (R105, R106). The two units are two states
(DEDUCED, log 14). -/
def Obligations.MergingAUnitGivesTheUnion : Prop :=
  ∀ (gs : List GlobalIndex) (a b : State), a.Inv → b.Inv → a.ready = true → b.ready = true →
    a.extM = true → b.extM = true → (∀ v, wordOf v b ≠ 0 → globalOf v ∈ gs) →
    ∃ a' b', mergeUnits gs a b = some (a', b') ∧ members a' = members a ∪ members b ∧
      a'.count.toNat = (members a ∪ members b).card ∧ sameUnit b b'

/-- Units share no state: a step of one leaves every other unit as it was. That several units are a list, of which one
step moves one unit, is the model's choice (DEDUCED, log 14); R107 says that they share nothing. -/
def Obligations.UnitsShareNoState : Prop :=
  ∀ (k : Nat) (units : List State), k < units.length →
    ∃ units', stepUnit k units = some units' ∧ units'.length = units.length ∧
      (∀ j, j ≠ k → units'[j]? = units[j]?) ∧ ∀ s, units[k]? = some s → ∃ t, step s = .next t ∧ units'[k]? = some t

/-- REGISTER.IP: four octets in [0, 255] assemble to REGISTER of `o0·256³ + o1·256² + o2·256 + o3`, whose four bytes are
the octets, most significant first; any octet above 255 is an assembly error (R73, R112). -/
def Obligations.RegisterIpIsTheAddressFormula : Prop :=
  ∀ o0 o1 o2 o3 : Nat,
    (o0 < 256 ∧ o1 < 256 ∧ o2 < 256 ∧ o3 < 256 →
      ∃ v : AddressValue, assembleLine (.registerIp o0 o1 o2 o3) = .ok (.register v) ∧
        v.toNat = 256 ^ 3 * o0 + 256 ^ 2 * o1 + 256 * o2 + o3 ∧
        (v.extractLsb' 24 8).toNat = o0 ∧ (v.extractLsb' 16 8).toNat = o1 ∧
        (v.extractLsb' 8 8).toNat = o2 ∧ (v.extractLsb' 0 8).toNat = o3) ∧
    (¬(o0 < 256 ∧ o1 < 256 ∧ o2 < 256 ∧ o3 < 256) →
      assembleLine (.registerIp o0 o1 o2 o3) = .error .octetOutOfRange)

/-- A counting pass on a unit in any state: after the host has sent CONSTRUCT, one REGISTER for every line that decodes,
and COUNT, the last response is DONE with the number of distinct address values among those lines (R97, R117, R118). It
holds for every value of the free value of the codec's edges (DESIGN CHOICE, log 13). -/
def Obligations.CountingPassReportsTheDistinctAddresses : Prop :=
  ∀ (s : State) (lines : List (List Char)), s.inputs = (countingPass lines false).map .command →
    ∃ t rw, Host.Core.run core (countingPass lines false).length s = .next t ∧ t.rsps.getLast? = some rw ∧
      stField rw = 0x0 ∧ (qField rw).toNat = (decodedLines lines).toFinset.card
end

