-- ==== Sys2Proof/Laws/Plane.lean ====
section
/-! SUPPORT. One plane of the store: what a read gives after a write, and that every operation keeps the canonical
form (10_state.md R14, R15; 20_memory.md R44, R45). -/

namespace Sys2Proof.Machine

@[simp] theorem zeroed_read (i : Nat) : Plane.zeroed.read i = 0 := rfl

@[simp] theorem zeroed_wf : Plane.zeroed.wf = true := rfl

@[simp] theorem unlisted_read (b : Background) (i : Nat) : (Plane.mk b []).read i = b.word i := rfl

@[simp] theorem unlisted_wf (b : Background) : (Plane.mk b []).wf = true := rfl

theorem lookupCell_insertCell (i j : Nat) (w : BitmapWord) (l : List (Nat × BitmapWord)) :
    lookupCell j (insertCell i w l) = if j = i then some w else lookupCell j l := by
  induction l with
  | nil => simp [insertCell, lookupCell, eq_comm]
  | cons c rest ih =>
    obtain ⟨k, x⟩ := c
    simp only [insertCell]
    split_ifs with hlt heq hji <;> simp only [lookupCell, ih] <;> grind

/-- In a rising list no cell lies below the bound. -/
theorem lookupCell_below (i least : Nat) (l : List (Nat × BitmapWord)) (h : risingFrom least l = true) (hi : i < least) :
    lookupCell i l = none := by
  induction l generalizing least with
  | nil => rfl
  | cons c rest ih =>
    obtain ⟨k, x⟩ := c
    simp only [risingFrom, Bool.and_eq_true, decide_eq_true_eq] at h
    have hk : k ≠ i := by omega
    simp [lookupCell, hk, ih (k + 1) h.2 (by omega)]

theorem lookupCell_eraseCell (i j least : Nat) (l : List (Nat × BitmapWord)) (h : risingFrom least l = true) :
    lookupCell j (eraseCell i l) = if j = i then none else lookupCell j l := by
  induction l generalizing least with
  | nil => simp [eraseCell, lookupCell]
  | cons c rest ih =>
    obtain ⟨k, x⟩ := c
    simp only [risingFrom, Bool.and_eq_true, decide_eq_true_eq] at h
    have hbelow := lookupCell_below k (k + 1) rest h.2 (by omega)
    have ih' := ih (k + 1) h.2
    simp only [eraseCell, lookupCell]
    split_ifs <;> grind [lookupCell]

theorem risingFrom_mono (a b : Nat) (l : List (Nat × BitmapWord)) (h : risingFrom b l = true) (hab : a ≤ b) :
    risingFrom a l = true := by
  cases l with
  | nil => rfl
  | cons c rest =>
    simp only [risingFrom, Bool.and_eq_true, decide_eq_true_eq] at h ⊢
    exact ⟨by omega, h.2⟩

theorem risingFrom_insertCell (i least : Nat) (w : BitmapWord) (l : List (Nat × BitmapWord))
    (h : risingFrom least l = true) (hi : least ≤ i) : risingFrom least (insertCell i w l) = true := by
  induction l generalizing least with
  | nil => simp [insertCell, risingFrom, hi]
  | cons c rest ih =>
    obtain ⟨k, x⟩ := c
    simp only [risingFrom, Bool.and_eq_true, decide_eq_true_eq] at h
    simp only [insertCell]
    split_ifs with h1 h2
    · simp only [risingFrom, Bool.and_eq_true, decide_eq_true_eq]
      exact ⟨hi, h1, h.2⟩
    · subst h2
      simp [risingFrom, hi, h.2]
    · simp only [risingFrom, Bool.and_eq_true, decide_eq_true_eq]
      exact ⟨h.1, ih (k + 1) h.2 (by omega)⟩

theorem risingFrom_eraseCell (i least : Nat) (l : List (Nat × BitmapWord)) (h : risingFrom least l = true) :
    risingFrom least (eraseCell i l) = true := by
  induction l generalizing least with
  | nil => rfl
  | cons c rest ih =>
    obtain ⟨k, x⟩ := c
    simp only [risingFrom, Bool.and_eq_true, decide_eq_true_eq] at h
    simp only [eraseCell]
    split_ifs with h1
    · exact risingFrom_mono _ _ _ h.2 (by omega)
    · simp only [risingFrom, Bool.and_eq_true, decide_eq_true_eq]
      exact ⟨h.1, ih (k + 1) h.2⟩

theorem mem_insertCell (i : Nat) (w : BitmapWord) (l : List (Nat × BitmapWord)) (c : Nat × BitmapWord)
    (h : c ∈ insertCell i w l) : c = (i, w) ∨ c ∈ l := by
  induction l with
  | nil => simpa [insertCell] using h
  | cons d rest ih =>
    obtain ⟨k, x⟩ := d
    simp only [insertCell] at h
    split_ifs at h <;> simp only [List.mem_cons] at h ⊢ <;> tauto

theorem mem_eraseCell (i : Nat) (l : List (Nat × BitmapWord)) (c : Nat × BitmapWord) (h : c ∈ eraseCell i l) : c ∈ l := by
  induction l with
  | nil => exact h
  | cons d rest ih =>
    obtain ⟨k, x⟩ := d
    simp only [eraseCell] at h
    split_ifs at h <;> simp only [List.mem_cons] at h ⊢ <;> tauto

@[simp] theorem write_background (p : Plane) (i : Nat) (w : BitmapWord) : (p.write i w).background = p.background := by
  simp only [Plane.write]
  split_ifs <;> rfl

theorem wf_rising {p : Plane} (h : p.wf = true) : risingFrom 0 p.words = true := by
  simp only [Plane.wf, Bool.and_eq_true] at h
  exact h.1

/-- A write is read back in its own word and nowhere else (R45). -/
theorem read_write (p : Plane) (h : p.wf = true) (i j : Nat) (w : BitmapWord) :
    (p.write i w).read j = if j = i then w else p.read j := by
  simp only [Plane.write, Plane.read]
  split_ifs with hw hji hji
  · subst hji
    simp [lookupCell_eraseCell j j 0 _ (wf_rising h), hw]
  · simp [lookupCell_eraseCell i j 0 _ (wf_rising h), hji]
  · simp [lookupCell_insertCell, hji]
  · simp [lookupCell_insertCell, hji]

/-- A write keeps the canonical form. -/
theorem write_wf (p : Plane) (h : p.wf = true) (i : Nat) (hi : i < Config.planeWords) (w : BitmapWord) :
    (p.write i w).wf = true := by
  have hr := wf_rising h
  simp only [Plane.wf, Bool.and_eq_true, List.all_eq_true, decide_eq_true_eq, bne_iff_ne, ne_eq] at h
  simp only [Plane.write]
  split_ifs with hw
  · simp only [Plane.wf, Bool.and_eq_true, List.all_eq_true, decide_eq_true_eq, bne_iff_ne, ne_eq]
    exact ⟨risingFrom_eraseCell _ _ _ hr, fun c hc => h.2 c (mem_eraseCell _ _ _ hc)⟩
  · simp only [Plane.wf, Bool.and_eq_true, List.all_eq_true, decide_eq_true_eq, bne_iff_ne, ne_eq]
    refine ⟨risingFrom_insertCell _ _ _ _ hr (Nat.zero_le i), fun c hc => ?_⟩
    rcases mem_insertCell _ _ _ _ hc with rfl | hc'
    · exact ⟨hi, hw⟩
    · exact h.2 c hc'

end Sys2Proof.Machine
end

