-- ==== Sys2Proof/Laws/State.lean ====
section
/-! SUPPORT. What each update of the state does to each field, so that no proof unfolds a record update. -/

namespace Sys2Proof.Machine

variable (s : State)

@[simp] theorem respond_lo (st : Status) (q : BitmapWord) : (respond st q s).lo = s.lo := rfl
@[simp] theorem respond_hi (st : Status) (q : BitmapWord) : (respond st q s).hi = s.hi := rfl
@[simp] theorem respond_count (st : Status) (q : BitmapWord) : (respond st q s).count = s.count := rfl
@[simp] theorem respond_ready (st : Status) (q : BitmapWord) : (respond st q s).ready = s.ready := rfl
@[simp] theorem respond_extM (st : Status) (q : BitmapWord) : (respond st q s).extM = s.extM := rfl
@[simp] theorem respond_inputs (st : Status) (q : BitmapWord) : (respond st q s).inputs = s.inputs := rfl
@[simp] theorem respond_rsps (st : Status) (q : BitmapWord) : (respond st q s).rsps = s.rsps ++ [responseWord st q] := rfl
@[simp] theorem respond_draws (st : Status) (q : BitmapWord) : (respond st q s).draws = s.draws := rfl

@[simp] theorem refuse_lo (st : Status) : (refuse st s).lo = s.lo := rfl
@[simp] theorem refuse_hi (st : Status) : (refuse st s).hi = s.hi := rfl
@[simp] theorem refuse_count (st : Status) : (refuse st s).count = s.count := rfl
@[simp] theorem refuse_ready (st : Status) : (refuse st s).ready = s.ready := rfl
@[simp] theorem refuse_extM (st : Status) : (refuse st s).extM = s.extM := rfl
@[simp] theorem refuse_inputs (st : Status) : (refuse st s).inputs = s.inputs := rfl
@[simp] theorem refuse_rsps (st : Status) : (refuse st s).rsps = s.rsps ++ [responseWord st 0] := rfl
@[simp] theorem refuse_draws (st : Status) : (refuse st s).draws = s.draws := rfl

@[simp] theorem addToCount_lo (n : Nat) : (addToCount n s).lo = s.lo := rfl
@[simp] theorem addToCount_hi (n : Nat) : (addToCount n s).hi = s.hi := rfl
@[simp] theorem addToCount_count (n : Nat) : (addToCount n s).count = s.count + BitVec.ofNat 33 n := rfl
@[simp] theorem addToCount_ready (n : Nat) : (addToCount n s).ready = s.ready := rfl
@[simp] theorem addToCount_extM (n : Nat) : (addToCount n s).extM = s.extM := rfl
@[simp] theorem addToCount_inputs (n : Nat) : (addToCount n s).inputs = s.inputs := rfl
@[simp] theorem addToCount_rsps (n : Nat) : (addToCount n s).rsps = s.rsps := rfl
@[simp] theorem addToCount_draws (n : Nat) : (addToCount n s).draws = s.draws := rfl

@[simp] theorem constructed_lo : (constructed s).lo = Plane.zeroed := rfl
@[simp] theorem constructed_hi : (constructed s).hi = Plane.zeroed := rfl
@[simp] theorem constructed_count : (constructed s).count = 0 := rfl
@[simp] theorem constructed_ready : (constructed s).ready = true := rfl
@[simp] theorem constructed_extM : (constructed s).extM = s.extM := rfl
@[simp] theorem constructed_inputs : (constructed s).inputs = s.inputs := rfl
@[simp] theorem constructed_rsps : (constructed s).rsps = s.rsps := rfl
@[simp] theorem constructed_draws : (constructed s).draws = s.draws := rfl

@[simp] theorem resetEvent_lo : (resetEvent s).lo = ⟨.unspecified s.draws, []⟩ := rfl
@[simp] theorem resetEvent_hi : (resetEvent s).hi = ⟨.unspecified (s.draws + 1), []⟩ := rfl
@[simp] theorem resetEvent_count : (resetEvent s).count = Config.unspecifiedCount (s.draws + 2) := rfl
@[simp] theorem resetEvent_ready : (resetEvent s).ready = false := rfl
@[simp] theorem resetEvent_extM : (resetEvent s).extM = s.extM := rfl
@[simp] theorem resetEvent_inputs : (resetEvent s).inputs = s.inputs := rfl
@[simp] theorem resetEvent_rsps : (resetEvent s).rsps = s.rsps := rfl
@[simp] theorem resetEvent_draws : (resetEvent s).draws = s.draws + 3 := rfl

@[simp] theorem present_lo (cw : CommandWord) : (present cw s).lo = s.lo := rfl
@[simp] theorem present_hi (cw : CommandWord) : (present cw s).hi = s.hi := rfl
@[simp] theorem present_count (cw : CommandWord) : (present cw s).count = s.count := rfl
@[simp] theorem present_ready (cw : CommandWord) : (present cw s).ready = s.ready := rfl
@[simp] theorem present_extM (cw : CommandWord) : (present cw s).extM = s.extM := rfl
@[simp] theorem present_inputs (cw : CommandWord) : (present cw s).inputs = .command cw :: s.inputs := rfl
@[simp] theorem present_rsps (cw : CommandWord) : (present cw s).rsps = s.rsps := rfl
@[simp] theorem present_draws (cw : CommandWord) : (present cw s).draws = s.draws := rfl

@[simp] theorem plane_low : s.plane .low = s.lo := rfl
@[simp] theorem setPlane_low_lo (p : Plane) : (s.setPlane .low p).lo = p := rfl
@[simp] theorem setPlane_low_hi (p : Plane) : (s.setPlane .low p).hi = s.hi := rfl
@[simp] theorem setPlane_low_count (p : Plane) : (s.setPlane .low p).count = s.count := rfl
@[simp] theorem setPlane_low_ready (p : Plane) : (s.setPlane .low p).ready = s.ready := rfl
@[simp] theorem setPlane_low_extM (p : Plane) : (s.setPlane .low p).extM = s.extM := rfl
@[simp] theorem setPlane_low_inputs (p : Plane) : (s.setPlane .low p).inputs = s.inputs := rfl
@[simp] theorem setPlane_low_rsps (p : Plane) : (s.setPlane .low p).rsps = s.rsps := rfl
@[simp] theorem setPlane_low_draws (p : Plane) : (s.setPlane .low p).draws = s.draws := rfl

@[simp] theorem plane_high : s.plane .high = s.hi := rfl
@[simp] theorem setPlane_high_lo (p : Plane) : (s.setPlane .high p).lo = s.lo := rfl
@[simp] theorem setPlane_high_hi (p : Plane) : (s.setPlane .high p).hi = p := rfl
@[simp] theorem setPlane_high_count (p : Plane) : (s.setPlane .high p).count = s.count := rfl
@[simp] theorem setPlane_high_ready (p : Plane) : (s.setPlane .high p).ready = s.ready := rfl
@[simp] theorem setPlane_high_extM (p : Plane) : (s.setPlane .high p).extM = s.extM := rfl
@[simp] theorem setPlane_high_inputs (p : Plane) : (s.setPlane .high p).inputs = s.inputs := rfl
@[simp] theorem setPlane_high_rsps (p : Plane) : (s.setPlane .high p).rsps = s.rsps := rfl
@[simp] theorem setPlane_high_draws (p : Plane) : (s.setPlane .high p).draws = s.draws := rfl

@[simp] theorem setPlane_count (k : PlaneSelect) (p : Plane) : (s.setPlane k p).count = s.count := by cases k <;> rfl
@[simp] theorem wordWrite_count (k : PlaneSelect) (i : WordIndex) (w : BitmapWord) : (wordWrite k i w s).count = s.count := by simp [wordWrite]
@[simp] theorem bitSet_count (v : AddressValue) : (bitSet v s).count = s.count := by simp [bitSet]
@[simp] theorem setPlane_ready (k : PlaneSelect) (p : Plane) : (s.setPlane k p).ready = s.ready := by cases k <;> rfl
@[simp] theorem wordWrite_ready (k : PlaneSelect) (i : WordIndex) (w : BitmapWord) : (wordWrite k i w s).ready = s.ready := by simp [wordWrite]
@[simp] theorem bitSet_ready (v : AddressValue) : (bitSet v s).ready = s.ready := by simp [bitSet]
@[simp] theorem setPlane_extM (k : PlaneSelect) (p : Plane) : (s.setPlane k p).extM = s.extM := by cases k <;> rfl
@[simp] theorem wordWrite_extM (k : PlaneSelect) (i : WordIndex) (w : BitmapWord) : (wordWrite k i w s).extM = s.extM := by simp [wordWrite]
@[simp] theorem bitSet_extM (v : AddressValue) : (bitSet v s).extM = s.extM := by simp [bitSet]
@[simp] theorem setPlane_inputs (k : PlaneSelect) (p : Plane) : (s.setPlane k p).inputs = s.inputs := by cases k <;> rfl
@[simp] theorem wordWrite_inputs (k : PlaneSelect) (i : WordIndex) (w : BitmapWord) : (wordWrite k i w s).inputs = s.inputs := by simp [wordWrite]
@[simp] theorem bitSet_inputs (v : AddressValue) : (bitSet v s).inputs = s.inputs := by simp [bitSet]
@[simp] theorem setPlane_rsps (k : PlaneSelect) (p : Plane) : (s.setPlane k p).rsps = s.rsps := by cases k <;> rfl
@[simp] theorem wordWrite_rsps (k : PlaneSelect) (i : WordIndex) (w : BitmapWord) : (wordWrite k i w s).rsps = s.rsps := by simp [wordWrite]
@[simp] theorem bitSet_rsps (v : AddressValue) : (bitSet v s).rsps = s.rsps := by simp [bitSet]
@[simp] theorem setPlane_draws (k : PlaneSelect) (p : Plane) : (s.setPlane k p).draws = s.draws := by cases k <;> rfl
@[simp] theorem wordWrite_draws (k : PlaneSelect) (i : WordIndex) (w : BitmapWord) : (wordWrite k i w s).draws = s.draws := by simp [wordWrite]
@[simp] theorem bitSet_draws (v : AddressValue) : (bitSet v s).draws = s.draws := by simp [bitSet]

@[simp] theorem plane_setPlane_same (k : PlaneSelect) (p : Plane) : (s.setPlane k p).plane k = p := by cases k <;> rfl

theorem plane_setPlane_other (k j : PlaneSelect) (p : Plane) (h : j ≠ k) : (s.setPlane k p).plane j = s.plane j := by
  cases k <;> cases j <;> first | rfl | exact absurd rfl h

@[simp] theorem plane_respond (st : Status) (q : BitmapWord) (k : PlaneSelect) : (respond st q s).plane k = s.plane k := by
  cases k <;> rfl

@[simp] theorem plane_addToCount (n : Nat) (k : PlaneSelect) : (addToCount n s).plane k = s.plane k := by cases k <;> rfl

@[simp] theorem plane_constructed (k : PlaneSelect) : (constructed s).plane k = Plane.zeroed := by cases k <;> rfl

/-- Taking an input off the port changes nothing but the port. -/
@[simp] theorem plane_setInputs (xs : List Input) (k : PlaneSelect) :
    State.plane { s with inputs := xs } k = s.plane k := by cases k <;> rfl

end Sys2Proof.Machine
end

