-- ==== Sys2Proof/Laws/Ops.lean ====
section
/-! SUPPORT. The store as the commands see it: words and bits of the state after each operation, and that every
operation keeps the canonical form (20_memory.md R44 to R47). -/

namespace Sys2Proof.Machine

/-- Both planes are in canonical form. -/
theorem wf_plane {s : State} (h : Memory.wf s = true) (k : PlaneSelect) : (s.plane k).wf = true := by
  simp only [Memory.wf, Bool.and_eq_true] at h
  cases k
  · exact h.1
  · exact h.2

theorem wf_of_plane {s : State} (h : ∀ k, (s.plane k).wf = true) : Memory.wf s = true := by
  simp only [Memory.wf, Bool.and_eq_true]
  exact ⟨h .low, h .high⟩

theorem widx_lt (i : WordIndex) : i.toNat < Config.planeWords := i.isLt

theorem wf_wordWrite {s : State} (h : Memory.wf s = true) (k : PlaneSelect) (i : WordIndex) (w : BitmapWord) :
    Memory.wf (wordWrite k i w s) = true := by
  refine wf_of_plane fun j => ?_
  by_cases hj : j = k
  · subst hj
    simpa [wordWrite] using write_wf _ (wf_plane h j) _ (widx_lt i) w
  · simpa [wordWrite, plane_setPlane_other _ _ _ _ hj] using wf_plane h j

theorem wf_bitSet {s : State} (h : Memory.wf s = true) (v : AddressValue) : Memory.wf (bitSet v s) = true :=
  wf_wordWrite h _ _ _

@[simp] theorem wf_respond (s : State) (st : Status) (q : BitmapWord) : Memory.wf (respond st q s) = Memory.wf s := rfl

@[simp] theorem wf_refuse (s : State) (st : Status) : Memory.wf (refuse st s) = Memory.wf s := rfl

@[simp] theorem wf_addToCount (s : State) (n : Nat) : Memory.wf (addToCount n s) = Memory.wf s := rfl

@[simp] theorem wf_constructed (s : State) : Memory.wf (constructed s) = true := rfl

@[simp] theorem wf_resetEvent (s : State) : Memory.wf (resetEvent s) = true := rfl

@[simp] theorem wf_present (s : State) (cw : CommandWord) : Memory.wf (present cw s) = Memory.wf s := rfl

/-- A plane after a word is written. -/
theorem plane_wordWrite (s : State) (k j : PlaneSelect) (i : WordIndex) (w : BitmapWord) :
    (wordWrite k i w s).plane j = if j = k then (s.plane j).write i.toNat w else s.plane j := by
  by_cases h : j = k
  · subst h
    simp [wordWrite]
  · simp [wordWrite, plane_setPlane_other _ _ _ _ h, h]

/-- Any word of the store after one word is written: the written one, or as before. -/
theorem wordRead_wordWrite {s : State} (h : Memory.wf s = true) (k j : PlaneSelect) (i i' : WordIndex) (w : BitmapWord) :
    wordRead j i' (wordWrite k i w s) = if j = k ∧ i' = i then w else wordRead j i' s := by
  simp only [wordRead, plane_wordWrite]
  by_cases hj : j = k
  · subst hj
    simp [read_write _ (wf_plane h j), BitVec.toNat_inj]
  · simp [hj]

@[simp] theorem wordRead_respond (s : State) (st : Status) (q : BitmapWord) (k : PlaneSelect) (i : WordIndex) :
    wordRead k i (respond st q s) = wordRead k i s := by simp [wordRead]

@[simp] theorem wordRead_addToCount (s : State) (n : Nat) (k : PlaneSelect) (i : WordIndex) :
    wordRead k i (addToCount n s) = wordRead k i s := by simp [wordRead]

@[simp] theorem wordRead_constructed (s : State) (k : PlaneSelect) (i : WordIndex) :
    wordRead k i (constructed s) = 0 := by simp [wordRead]

@[simp] theorem wordOf_respond (s : State) (st : Status) (q : BitmapWord) (v : AddressValue) :
    wordOf v (respond st q s) = wordOf v s := by simp [wordOf]

@[simp] theorem wordOf_addToCount (s : State) (n : Nat) (v : AddressValue) : wordOf v (addToCount n s) = wordOf v s := by
  simp [wordOf]

@[simp] theorem bitTest_respond (s : State) (st : Status) (q : BitmapWord) (v : AddressValue) :
    bitTest v (respond st q s) = bitTest v s := by simp [bitTest]

@[simp] theorem bitTest_addToCount (s : State) (n : Nat) (v : AddressValue) :
    bitTest v (addToCount n s) = bitTest v s := by simp [bitTest]

@[simp] theorem bitTest_constructed (s : State) (v : AddressValue) : bitTest v (constructed s) = false := by
  simp [bitTest, wordOf]

/-- The mask of an offset has that one bit (R34). -/
theorem getLsbD_maskOf (k : BitOffset) (j : Nat) : (maskOf k).getLsbD j = decide (j = k.toNat) := by
  have := k.isLt
  simp only [maskOf, BitVec.getLsbD_shiftLeft, BitVec.getLsbD_one]
  by_cases h : j = k.toNat
  · subst h; simp; omega
  · simp [h]; omega

/-- The word of an address value after the word of another is written. -/
theorem wordOf_wordWrite {s : State} (h : Memory.wf s = true) (v v' : AddressValue) (w : BitmapWord) :
    wordOf v' (wordWrite (planeOf v) (widxOf v) w s) =
      if planeOf v' = planeOf v ∧ widxOf v' = widxOf v then w else wordOf v' s :=
  wordRead_wordWrite h _ _ _ _ _

/-- Any bit of the store after the bit of `v` is set: 1 in its place, else as before (R47). -/
theorem bitTest_bitSet {s : State} (h : Memory.wf s = true) (v v' : AddressValue) :
    bitTest v' (bitSet v s) = (decide (placeOf v' = placeOf v) || bitTest v' s) := by
  simp only [bitTest, bitSet, wordOf_wordWrite h, placeOf, Place.mk.injEq]
  by_cases hp : planeOf v' = planeOf v ∧ widxOf v' = widxOf v
  · have hw : wordOf v' s = wordOf v s := by simp [wordOf, hp.1, hp.2]
    rw [if_pos hp, BitVec.getLsbD_or, getLsbD_maskOf, hw]
    simp [hp.1, hp.2, BitVec.toNat_inj, Bool.or_comm]
  · have hn : ¬(planeOf v' = planeOf v ∧ widxOf v' = widxOf v ∧ offOf v' = offOf v) := fun hc => hp ⟨hc.1, hc.2.1⟩
    rw [if_neg hp]
    simp [hn]

end Sys2Proof.Machine
end

