-- ==== Sys2Proof/Laws/Words.lean ====
section
/-! SUPPORT. The fields of the command and response words, and of an address value, as numbers (30_encoding.md R61,
R62; 20_memory.md R39). -/

namespace Sys2Proof

theorem toNat_opField (cw : CommandWord) : (opField cw).toNat = cw.toNat / 2 ^ 96 := by
  have := cw.isLt
  simp only [opField, BitVec.extractLsb'_toNat, Nat.shiftRight_eq_div_pow]
  omega

theorem toNat_aField (cw : CommandWord) : (aField cw).toNat = cw.toNat / 2 ^ 64 % 2 ^ 32 := by
  simp only [aField, BitVec.extractLsb'_toNat, Nat.shiftRight_eq_div_pow]

theorem toNat_dField (cw : CommandWord) : (dField cw).toNat = cw.toNat % 2 ^ 64 := by
  simp only [dField, BitVec.extractLsb'_toNat, Nat.shiftRight_zero]

/-- Concatenation as a number: the second part in the low bits (R6). -/
theorem toNat_append_eq {m n : Nat} (x : BitVec m) (y : BitVec n) : (x ++ y).toNat = x.toNat * 2 ^ n + y.toNat := by
  rw [BitVec.toNat_append, ← Nat.shiftLeft_add_eq_or_of_lt y.isLt, Nat.shiftLeft_eq]

/-- The number a command word is (R61). -/
theorem toNat_commandWord (op : Opcode) (a : AddressValue) (d : BitmapWord) :
    (commandWord op a d).toNat = op.toNat * 2 ^ 96 + a.toNat * 2 ^ 64 + d.toNat := by
  simp only [commandWord, BitVec.toNat_cast, toNat_append_eq]
  omega

@[simp] theorem opField_commandWord (op : Opcode) (a : AddressValue) (d : BitmapWord) :
    opField (commandWord op a d) = op := by
  have := a.isLt
  have := d.isLt
  apply BitVec.eq_of_toNat_eq
  rw [toNat_opField, toNat_commandWord]
  omega

@[simp] theorem aField_commandWord (op : Opcode) (a : AddressValue) (d : BitmapWord) :
    aField (commandWord op a d) = a := by
  have := a.isLt
  have := d.isLt
  apply BitVec.eq_of_toNat_eq
  rw [toNat_aField, toNat_commandWord]
  omega

@[simp] theorem dField_commandWord (op : Opcode) (a : AddressValue) (d : BitmapWord) :
    dField (commandWord op a d) = d := by
  have := d.isLt
  apply BitVec.eq_of_toNat_eq
  rw [toNat_dField, toNat_commandWord]
  omega

end Sys2Proof

namespace Sys2Proof.Machine

/-- The number a response word is (R62). -/
theorem toNat_responseWord (st : Status) (q : BitmapWord) :
    (responseWord st q).toNat = st.code.toNat * 2 ^ 64 + q.toNat := by
  simp only [responseWord, BitVec.toNat_cast, toNat_append_eq]

theorem toNat_stField (rw : ResponseWord) : (stField rw).toNat = rw.toNat / 2 ^ 64 := by
  have := rw.isLt
  simp only [stField, BitVec.extractLsb'_toNat, Nat.shiftRight_eq_div_pow]
  omega

theorem toNat_qField (rw : ResponseWord) : (qField rw).toNat = rw.toNat % 2 ^ 64 := by
  simp only [qField, BitVec.extractLsb'_toNat, Nat.shiftRight_zero]

@[simp] theorem stField_responseWord (st : Status) (q : BitmapWord) : stField (responseWord st q) = st.code := by
  have := q.isLt
  apply BitVec.eq_of_toNat_eq
  rw [toNat_stField, toNat_responseWord]
  omega

@[simp] theorem qField_responseWord (st : Status) (q : BitmapWord) : qField (responseWord st q) = q := by
  have := q.isLt
  apply BitVec.eq_of_toNat_eq
  rw [toNat_qField, toNat_responseWord]
  omega

@[simp] theorem ofCode_code (st : Status) : Status.ofCode st.code = some st := by cases st <;> rfl

theorem toNat_widxOf (v : AddressValue) : (widxOf v).toNat = v.toNat / 64 % 2 ^ 25 := by
  simp only [widxOf, BitVec.extractLsb'_toNat, Nat.shiftRight_eq_div_pow]

theorem toNat_offOf (v : AddressValue) : (offOf v).toNat = v.toNat % 64 := by
  simp only [offOf, BitVec.extractLsb'_toNat, Nat.shiftRight_zero]

theorem toNat_globalOf (v : AddressValue) : (globalOf v).toNat = v.toNat / 64 := by
  have := v.isLt
  simp only [globalOf, BitVec.extractLsb'_toNat, Nat.shiftRight_eq_div_pow]
  omega

theorem num_planeOf (v : AddressValue) : (planeOf v).num = v.toNat / 2 ^ 31 := by
  have hlt := v.isLt
  have h : v.getLsbD 31 = decide (v.toNat / 2 ^ 31 % 2 = 1) := by
    simp [BitVec.getLsbD, Nat.testBit_eq_decide_div_mod_eq]
  simp only [planeOf, h]
  by_cases hd : v.toNat / 2 ^ 31 % 2 = 1
  · simp only [hd, decide_true, if_true, PlaneSelect.num]
    omega
  · simp only [hd, decide_false, Bool.false_eq_true, if_false, PlaneSelect.num]
    omega

end Sys2Proof.Machine
end

