-- ==== Sys2Proof/Laws/PerInstr.lean ====
section
/-! SUPPORT. Per instruction: the fields of its canonical word (30_encoding.md R61, R63, R72). -/

namespace Sys2Proof.Laws.EncodeFields

/-- The opcode of an instruction (R63). -/
def opcodeOf : Instr → Opcode
  | .construct => 0x1
  | .register _ => 0x2
  | .count => 0x3
  | .rdword _ => 0x4
  | .merge _ _ => 0x5

/-- The canonical word carries the instruction's opcode, and an operand field the instruction does not use is 0
(R63, R72). -/
def Statement (i : Instr) : Prop :=
  opField (encode i) = opcodeOf i ∧
    ((i = .construct ∨ i = .count) → aField (encode i) = 0) ∧
    ((∀ a d, i ≠ .merge a d) → dField (encode i) = 0)

theorem construct : Statement .construct := by simp [Statement, encode, opcodeOf]

theorem register (v : AddressValue) : Statement (.register v) := by simp [Statement, encode, opcodeOf]

theorem count : Statement .count := by simp [Statement, encode, opcodeOf]

theorem rdword (a : AddressValue) : Statement (.rdword a) := by simp [Statement, encode, opcodeOf]

theorem merge (a : AddressValue) (d : BitmapWord) : Statement (.merge a d) := by simp [Statement, encode, opcodeOf]

end Sys2Proof.Laws.EncodeFields
end

