-- ==== Sys2Proof/Laws/PopCount.lean ====
section
/-! SUPPORT. The population count of a plane, and what a write does to it (20_memory.md R48; 10_state.md R19). -/

namespace Sys2Proof.Machine

theorem popcount64_le (w : BitmapWord) : popcount64 w ≤ 64 := by
  simpa [popcount64] using List.countP_le_length (p := fun i => w.getLsbD i) (l := List.range 64)

@[simp] theorem popcount64_zero : popcount64 0#64 = 0 := by simp [popcount64]

@[simp] theorem popCount_zeroed : Plane.zeroed.popCount = 0 := by
  unfold Plane.popCount
  simp

/-- A sum over a range in which one summand changes. -/
theorem sum_range_update (n i : Nat) (hi : i < n) (f g : Nat → Nat) (h : ∀ j, j ≠ i → g j = f j) :
    ((List.range n).map g).sum + f i = ((List.range n).map f).sum + g i := by
  induction n with
  | zero => omega
  | succ n ih =>
    simp only [List.range_succ, List.map_append, List.sum_append, List.map_cons, List.map_nil, List.sum_singleton]
    by_cases hn : i = n
    · subst hn
      have hc : (List.range i).map g = (List.range i).map f :=
        List.map_congr_left fun j hj => h j (by simp at hj; omega)
      rw [hc]
      omega
    · have := ih (by omega)
      have := h n (Ne.symm hn)
      omega

/-- The population count of a plane moves by what the one written word gains or loses. -/
theorem popCount_write (p : Plane) (h : p.wf = true) (i : Nat) (hi : i < Config.planeWords) (w : BitmapWord) :
    (p.write i w).popCount + popcount64 (p.read i) = p.popCount + popcount64 w := by
  have hu := sum_range_update Config.planeWords i hi (fun j => popcount64 (p.read j))
    (fun j => popcount64 ((p.write i w).read j)) (fun j hj => by simp [read_write p h, hj])
  unfold Plane.popCount
  simpa [read_write p h] using hu

theorem sum_popcount_le (p : Plane) (l : List Nat) : (l.map fun i => popcount64 (p.read i)).sum ≤ l.length * 64 := by
  induction l with
  | nil => simp
  | cons i l ih =>
    have := popcount64_le (p.read i)
    simp only [List.map_cons, List.sum_cons, List.length_cons]
    omega

/-- A plane has at most one set bit for each of its `Config.planeBits` positions. -/
theorem popCount_le (p : Plane) : p.popCount ≤ Config.planeWords * 64 := by
  unfold Plane.popCount
  exact (sum_popcount_le p _).trans (Nat.le_of_eq (congrArg (· * 64) List.length_range))

end Sys2Proof.Machine
end

