-- ==== Sys2Proof/Laws/Step.lean ====
section
/-! SUPPORT. Everything a command, an input and a step can do, said once. -/

namespace Sys2Proof.Machine

/-- Everything REGISTER can do (R85, R86). -/
theorem execRegister_cases (v : AddressValue) (s : State) :
    (s.ready = false ∧ execRegister v s = .next (refuse .notReady s)) ∨
    (s.ready = true ∧ bitTest v s = true ∧ execRegister v s = .next (respond .present 0 s)) ∨
    (s.ready = true ∧ bitTest v s = false ∧
      execRegister v s = .next (respond .new 0 (addToCount 1 (bitSet v s)))) := by
  unfold execRegister
  cases hr : s.ready <;> cases hb : bitTest v s <;> simp

/-- Everything COUNT can do (R95, R96). -/
theorem execCount_cases (s : State) :
    (s.ready = false ∧ execCount s = .next (refuse .notReady s)) ∨
    (s.ready = true ∧ execCount s = .next (respond .done (s.count.setWidth 64) s)) := by
  unfold execCount
  cases hr : s.ready <;> simp

/-- Everything RDWORD can do (R68, R101, R108). -/
theorem execRdword_cases (a : AddressValue) (s : State) :
    (s.extM = false ∧ execRdword a s = .next (refuse .illegal s)) ∨
    (s.extM = true ∧ s.ready = false ∧ execRdword a s = .next (refuse .notReady s)) ∨
    (s.extM = true ∧ s.ready = true ∧ execRdword a s = .next (respond .done (wordOf a s) s)) := by
  unfold execRdword
  cases he : s.extM <;> cases hr : s.ready <;> simp

/-- Everything MERGE can do (R68, R102, R108). -/
theorem execMerge_cases (a : AddressValue) (d : BitmapWord) (s : State) :
    (s.extM = false ∧ execMerge a d s = .next (refuse .illegal s)) ∨
    (s.extM = true ∧ s.ready = false ∧ execMerge a d s = .next (refuse .notReady s)) ∨
    (s.extM = true ∧ s.ready = true ∧ execMerge a d s =
      .next (respond .done (BitVec.ofNat 64 (popcount64 (d &&& ~~~wordOf a s)))
        (addToCount (popcount64 (d &&& ~~~wordOf a s))
          (wordWrite (planeOf a) (widxOf a) (wordOf a s ||| d) s)))) := by
  unfold execMerge
  cases he : s.extM <;> cases hr : s.ready <;> simp

/-- What every command does to the ports: it answers a next state, delivers one response, and touches nothing of the
command port; ILLEGAL and NOTREADY come exactly where the rules say, and only DONE carries data (R64, R135). -/
theorem exec_ports (i : Instr) (s : State) : ∃ st q u, exec i s = .next (respond st q u) ∧
    u.rsps = s.rsps ∧ u.extM = s.extM ∧ u.inputs = s.inputs ∧ u.draws = s.draws ∧
    (st = .illegal ↔ i.needsExtM = true ∧ s.extM = false) ∧
    (st = .notReady ↔ i ≠ .construct ∧ (i.needsExtM = true → s.extM = true) ∧ s.ready = false) ∧
    (st = .illegal ∨ st = .notReady → u = s) ∧ (st ≠ .done → q = 0) := by
  cases i with
  | construct => exact ⟨.done, 0, constructed s, rfl, by simp [Instr.needsExtM]⟩
  | register v =>
    obtain ⟨h, he⟩ | ⟨h, -, he⟩ | ⟨h, -, he⟩ := execRegister_cases v s
    · exact ⟨.notReady, 0, s, he, by simp [h, Instr.needsExtM]⟩
    · exact ⟨.present, 0, s, he, by simp [h, Instr.needsExtM]⟩
    · exact ⟨.new, 0, _, he, by simp [h, Instr.needsExtM]⟩
  | count =>
    obtain ⟨h, he⟩ | ⟨h, he⟩ := execCount_cases s
    · exact ⟨.notReady, 0, s, he, by simp [h, Instr.needsExtM]⟩
    · exact ⟨.done, _, s, he, by simp [h, Instr.needsExtM]⟩
  | rdword a =>
    obtain ⟨h, he⟩ | ⟨hx, h, he⟩ | ⟨hx, h, he⟩ := execRdword_cases a s
    · exact ⟨.illegal, 0, s, he, by simp [h, Instr.needsExtM]⟩
    · exact ⟨.notReady, 0, s, he, by simp [h, hx, Instr.needsExtM]⟩
    · exact ⟨.done, _, s, he, by simp [h, hx, Instr.needsExtM]⟩
  | merge a d =>
    obtain ⟨h, he⟩ | ⟨hx, h, he⟩ | ⟨hx, h, he⟩ := execMerge_cases a d s
    · exact ⟨.illegal, 0, s, he, by simp [h, Instr.needsExtM]⟩
    · exact ⟨.notReady, 0, s, he, by simp [h, hx, Instr.needsExtM]⟩
    · exact ⟨.done, _, _, he, by simp [h, hx, Instr.needsExtM]⟩

/-- Everything an input can do: reset, a word that selects no command, or a command (R135, R150, R152). -/
theorem handle_cases (i : Input) (s : State) :
    ((i = .reset ∨ ∃ cw, i = .resetDuring cw) ∧ handle i s = .next (resetEvent s)) ∨
    (∃ cw e, i = .command cw ∧ decode s.extM cw = .error e ∧ handle i s = .next (refuse .illegal s)) ∨
    (∃ cw c, i = .command cw ∧ decode s.extM cw = .ok c ∧ handle i s = exec c s) := by
  cases i with
  | reset => exact .inl ⟨.inl rfl, rfl⟩
  | resetDuring cw => exact .inl ⟨.inr ⟨cw, rfl⟩, rfl⟩
  | command cw =>
    cases hd : decode s.extM cw with
    | error e => exact .inr (.inl ⟨cw, e, rfl, hd, by simp [handle, accept, hd]⟩)
    | ok c => exact .inr (.inr ⟨cw, c, rfl, hd, by simp [handle, accept, hd]⟩)

/-- Everything a step can do: wait, or take the next input (R143, R157). -/
theorem step_cases (s : State) :
    (s.inputs = [] ∧ step s = .next s) ∨
    (∃ i rest, s.inputs = i :: rest ∧ step s = handle i { s with inputs := rest }) := by
  unfold step takeInput
  cases h : s.inputs with
  | nil => exact .inl ⟨rfl, rfl⟩
  | cons i rest => exact .inr ⟨i, rest, rfl, rfl⟩

/-- A presented command is the one the next step takes. -/
@[simp] theorem step_present (cw : CommandWord) (s : State) : step (present cw s) = accept cw s := rfl

/-- A run that begins with a step that answers a next state. -/
theorem run_succ {s t : State} (k : Nat) (h : step s = .next t) :
    Host.Core.run core (k + 1) s = Host.Core.run core k t := by
  simp only [Host.Core.run, show core.step s = .next t from h]

end Sys2Proof.Machine
end

