-- ==== Sys2Proof/Tests/Slice0.lean ====
section
/-! SUPPORT. The model's own tests. Expected results are those of spec/95_test_vectors.md (sections 1 and 2, programs P1
to P4) or worked out by hand from the rule named; then the well-formedness smoke tests, and for every statement with
hypotheses a concrete case that meets them. -/

namespace Sys2Proof.Tests

open Sys2Proof Sys2Proof.Machine

/-! ### A small state and what a test looks at -/

/-- A constructed unit with the listed words. -/
def unitWith (lo hi : List (Nat × BitmapWord)) (count : CountValue) (extM : Bool) : State where
  lo := ⟨.zero, lo⟩
  hi := ⟨.zero, hi⟩
  count := count
  ready := true
  extM := extM
  inputs := []
  rsps := []
  draws := 3

/-- What a test looks at: the words listed, `COUNT`, `READY` and the responses. -/
structure Seen where
  lo : List (Nat × BitmapWord)
  hi : List (Nat × BitmapWord)
  count : CountValue
  ready : Bool
  rsps : List ResponseWord
deriving DecidableEq, Repr

/-- What is seen after a step that goes on. -/
def look : Host.Outcome State Fault Refusal → Option Seen
  | .next t => some ⟨t.lo.words, t.hi.words, t.count, t.ready, t.rsps⟩
  | .fault _ => none
  | .refused _ => none

/-- `READY` and the responses after a step that goes on. -/
def answers : Host.Outcome State Fault Refusal → Option (Bool × List ResponseWord)
  | .next t => some (t.ready, t.rsps)
  | .fault _ => none
  | .refused _ => none

/-! ### Well-formedness: an ill-formed term for the one check -/

theorem test_rdword_ill_formed_without_extension : wellFormed false (.rdword 0x0A000000) = false := by decide

theorem test_merge_ill_formed_without_extension : wellFormed false (.merge 0x0A000000 0x6) = false := by decide

theorem test_baseline_is_well_formed :
    wellFormed false .construct = true ∧ wellFormed false (.register 0xFFFFFFFF) = true ∧ wellFormed false .count = true := by
  decide

/-! ### Decoding: words written out from R61 and R63 -/

/-- Section 2.4: CONSTRUCT with a = 7, d = 9. -/
theorem test_decode_construct : decode false 0x1000000070000000000000009 = .ok .construct := by decide

/-- Section 2.2: REGISTER 192.168.1.1. -/
theorem test_decode_register : decode false 0x2C0A801010000000000000000 = .ok (.register 0xC0A80101) := by decide

/-- Section 2.2: an ignored d. -/
theorem test_decode_register_ignores_d : decode false 0x20000000500000000DEADBEEF = .ok (.register 5) := by decide

/-- Section 2.3: COUNT with both ignored fields not 0. -/
theorem test_decode_count : decode false 0x3FFFFFFFF0000000000000001 = .ok .count := by decide

/-- Section 2.6. -/
theorem test_decode_rdword : decode true 0x40A0000000000000000000000 = .ok (.rdword 0x0A000000) := by decide

/-- Section 2.6. -/
theorem test_decode_merge : decode true 0x500000040FFFFFFFFFFFFFFFF = .ok (.merge 0x40 0xFFFFFFFFFFFFFFFF) := by decide

/-- Section 2.5: the refusals and their nearest accepted neighbours. -/
theorem test_decode_illegal :
    decode true 0x0000000000000000000000000 = .error (.reservedOpcode 0x0) ∧
    decode true 0x6000000000000000000000000 = .error (.reservedOpcode 0x6) ∧
    decode true 0x7000000050000000000000000 = .error (.reservedOpcode 0x7) ∧
    decode true 0xFFFFFFFFFFFFFFFFFFFFFFFFF = .error (.reservedOpcode 0xF) ∧
    decode false 0x40A0000000000000000000000 = .error (.extensionAbsent 0x4) ∧
    decode false 0x50A0000000000000000000006 = .error (.extensionAbsent 0x5) := by decide

/-- Section 2: the canonical words. -/
theorem test_encode :
    encode .construct = 0x1000000000000000000000000 ∧ encode (.register 0x0A000001) = 0x20A0000010000000000000000 ∧
    encode .count = 0x3000000000000000000000000 ∧ encode (.rdword 0x80000000) = 0x4800000000000000000000000 ∧
    encode (.merge 0x0A000000 0xC) = 0x50A000000000000000000000C := by decide

/-- No word belongs to two rows of the opcode table. -/
theorem test_table_rows_differ :
    opcodeTable.Pairwise fun r q => r.bits &&& (r.mask &&& q.mask) ≠ q.bits &&& (r.mask &&& q.mask) := by decide

/-- The table's own words, 100 bits in 13 bytes, and a number with a bit above bit 99. -/
theorem test_decode_table_word :
    decodeTableWord 104 0x1000000000000000000000000 = some .construct ∧
    decodeTableWord 104 0x2000000000000000000000000 = some (.register 0) ∧
    decodeTableWord 104 0x3000000000000000000000000 = some .count ∧
    decodeTableWord 104 0x4000000000000000000000000 = some (.rdword 0) ∧
    decodeTableWord 104 0x5000000000000000000000000 = some (.merge 0 0) ∧
    decodeTableWord 104 0x0000000000000000000000000 = none ∧
    decodeTableWord 104 0x81000000000000000000000000 = none := by decide

/-! ### The index converter: rows of the table of section 2.1 -/

theorem test_converter_rows :
    placeOf 0x0000003F = ⟨.low, 0, 63⟩ ∧ placeOf 0x00000040 = ⟨.low, 1, 0⟩ ∧ placeOf 0x01020304 = ⟨.low, 0x004080C, 4⟩ ∧
    placeOf 0x7FFFFFFF = ⟨.low, 0x1FFFFFF, 63⟩ ∧ placeOf 0x80000000 = ⟨.high, 0, 0⟩ ∧
    placeOf 0xC0A80101 = ⟨.high, 0x102A004, 1⟩ ∧ placeOf 0xFFFFFFFF = ⟨.high, 0x1FFFFFF, 63⟩ := by decide

theorem test_global_index_rows :
    globalOf 0x0A000002 = 0x0280000 ∧ globalOf 0x80000001 = 0x2000000 ∧ globalOf 0xC0A80101 = 0x302A004 := by decide

/-! ### The commands -/

/-- Section 2.4: four words not zero, COUNT = 4. -/
theorem test_construct_clears :
    look (exec .construct (unitWith [(0, 1), (0x1FFFFFF, 0x8000000000000000)] [(0, 1), (0x1FFFFFF, 0x8000000000000000)] 4 false)) =
      some ⟨[], [], 0, true, [0x00000000000000000]⟩ := by decide

/-- Section 2.4: straight after reset; the unspecified contents are not read. -/
theorem test_construct_after_reset :
    look (step (State.reset.withFetchWord 104 0x1000000000000000000000000)) = some ⟨[], [], 0, true, [0x00000000000000000]⟩ := by
  decide

/-- Section 2.2: same word, other bit. -/
theorem test_register_new :
    look (exec (.register 0x0A000002) (unitWith [(0x280000, 0x2)] [] 1 false)) =
      some ⟨[(0x280000, 0x6)], [], 2, true, [0x10000000000000000]⟩ := by decide

/-- Section 2.2: the boundary value goes to bit 0 of HI[0], not to bit 1 (the legacy policy). -/
theorem test_register_split :
    look (exec (.register 0x80000000) (unitWith [(0x1FFFFFF, 0x8000000000000000)] [(0x1FFFFFF, 0x8000000000000000)] 2 false)) =
      some ⟨[(0x1FFFFFF, 0x8000000000000000)], [(0, 0x1), (0x1FFFFFF, 0x8000000000000000)], 3, true, [0x10000000000000000]⟩ := by
  decide

/-- Section 2.3: COUNT = 2^32 needs bit 32 of q. -/
theorem test_count_needs_bit_32 :
    look (exec .count (unitWith [] [] 0x100000000 false)) = some ⟨[], [], 0x100000000, true, [0x00000000100000000]⟩ := by decide

/-- Section 2.3: after reset, NOTREADY. -/
theorem test_count_not_ready :
    answers (step (State.reset.withFetchWord 104 0x3000000000000000000000000)) = some (false, [0xE0000000000000000]) := by decide

/-- Section 2.6: the last word of the high plane. -/
theorem test_rdword_last_word :
    look (exec (.rdword 0xFFFFFFFF) (unitWith [] [(0x1FFFFFF, 0x8000000000000000)] 1 true)) =
      some ⟨[], [(0x1FFFFFF, 0x8000000000000000)], 1, true, [0x08000000000000000]⟩ := by decide

/-- Section 2.5: decoding is checked before READY. -/
theorem test_rdword_without_extension :
    answers (step (present 0x40A0000000000000000000000 (State.resetFor false))) = some (false, [0xF0000000000000000]) := by decide

/-- Section 2.6: 63 new bits of 64, COUNT from 4 to 67. -/
theorem test_merge_counts_new_bits :
    look (exec (.merge 0x40 0xFFFFFFFFFFFFFFFF) (unitWith [(1, 0x1)] [] 4 true)) =
      some ⟨[(1, 0xFFFFFFFFFFFFFFFF)], [], 67, true, [0x0000000000000003F]⟩ := by decide

/-- Section 2.6: a subset of the stored word changes nothing. -/
theorem test_merge_idempotent :
    look (exec (.merge 0x0A00003F 0x6) (unitWith [(0x280000, 0x6)] [] 2 true)) =
      some ⟨[(0x280000, 0x6)], [], 2, true, [0x00000000000000000]⟩ := by decide

/-- R152: no answer for a command cut off by reset; the earlier answers stay. -/
theorem test_reset_during_command :
    answers (step { unitWith [(0, 0x20)] [] 1 false with
      inputs := [.resetDuring 0x2000000060000000000000000], rsps := [0x10000000000000000] }) =
      some (false, [0x10000000000000000]) := by decide

/-! ### Assembler, responses, host side -/

/-- Section 2.7. -/
theorem test_assemble_lines :
    assemble ["REGISTER.IP 192.168.1.1".toList, "RDWORD.G 0x280000".toList, "MERGE.G 0x2000000, 1".toList,
      "count()  # the total".toList, "# nothing".toList, "register(16_909_060)".toList] =
      .ok [0x2C0A801010000000000000000, 0x40A0000000000000000000000, 0x5800000000000000000000001,
        0x3000000000000000000000000, 0x2010203040000000000000000] := by decide

/-- Section 2.7: octet out of range; R72: operand out of range. -/
theorem test_assemble_errors :
    assemble ["REGISTER.IP 999.1.1.1".toList] = .error .octetOutOfRange ∧
    assemble ["REGISTER 4294967296".toList] = .error .outOfRange ∧
    assemble ["RDWORD.G 0x4000000".toList] = .error .outOfRange := by decide

/-- R74: the written responses and words. -/
theorem test_response_text :
    responseText 0x00000000000000002 = some "DONE 2".toList ∧ responseText 0x10000000000000000 = some "NEW".toList ∧
    responseText 0x30000000000000000 = none ∧
    responseWordText 0x00000000000000002 = "0x00000000000000002".toList ∧
    commandWordText 0x20A0000010000000000000000 = "0x20A0000010000000000000000".toList := by decide

/-- Sections 1.1 and 1.2. -/
theorem test_codec :
    decodeAddress "0.0.0.0".toList = .ok 0 ∧ decodeAddress "255.255.255.255".toList = .ok 4294967295 ∧
    decodeAddress "192.168.1.1".toList = .ok 3232235777 ∧ decodeAddress "1.2.3".toList = .error .segmentCount ∧
    decodeAddress "1.2.3.a".toList = .error .notAnInteger ∧ decodeAddress "1.2.3.4.5".toList = .error .segmentCount ∧
    decodeAddress "999.1.1.1".toList = .error .octetRange := by decide

/-- R111, N12: a sign or a carriage return out of place makes no base-10 integer; only the edges N12 names are open. -/
theorem test_codec_edges :
    decodeAddress "1-2.1.1.1".toList = .error .notAnInteger ∧ decodeAddress "1.5+.1.1".toList = .error .notAnInteger ∧
    decodeAddress "1\r.1.1.1".toList = .error .notAnInteger ∧ decodeAddress "1.1.1.-".toList = .error .notAnInteger ∧
    edgeSegment false "".toList = some ⟨false, []⟩ ∧ edgeSegment false "+ 007 1".toList = some ⟨false, ["007".toList, "1".toList]⟩ ∧
    edgeSegment false "-5".toList = some ⟨true, ["5".toList]⟩ ∧ edgeSegment true "5\r".toList = some ⟨false, ["5".toList]⟩ := by
  decide

/-- R111, R112, R115: an edge that is accepted has the value its digits write; what is negative or above 255 is a
FormatError whether the parser accepts it or not. -/
theorem test_codec_edge_values (k : Nat) :
    edgeValue (some k) ⟨false, ["007".toList]⟩ = some 7 ∧ edgeValue (some k) ⟨false, ["0999".toList]⟩ = some 999 ∧
    edgeValue (some k) ⟨true, ["5".toList]⟩ = none ∧ edgeValue (some k) ⟨true, ["0".toList]⟩ = some 0 ∧
    edgeValue none ⟨false, ["007".toList]⟩ = none := by
  refine ⟨?_, ?_, ?_, ?_, rfl⟩ <;> simp only [edgeValue, List.take_succ_cons, List.take_nil] <;> decide

/-- Section 1.5 and program P1: the commands of the mixed stream, and one diagnostic. -/
theorem test_counting_pass :
    countingPass ["10.0.0.1".toList, "10.0.0.1".toList, "10.0.0.2".toList, "bad.input".toList, "10.0.0.2".toList] false =
      [0x1000000000000000000000000, 0x20A0000010000000000000000, 0x20A0000010000000000000000, 0x20A0000020000000000000000,
        0x20A0000020000000000000000, 0x3000000000000000000000000] ∧
    diagnostics ["10.0.0.1".toList, "bad.input".toList] false = 1 := by decide

/-! ### Witnesses: states and operands that meet the hypotheses of the statements -/

/-- The unit straight after CONSTRUCT. -/
def emptyUnit (extM : Bool) : State := unitWith [] [] 0 extM

/-- The unit after CONSTRUCT and REGISTER 5 (program P3, step 2). -/
def fiveUnit (extM : Bool) : State := unitWith [(0, 0x20)] [] 1 extM

theorem emptyUnit_inv (extM : Bool) : (emptyUnit extM).Inv where
  wf := rfl
  defined := fun _ => ⟨rfl, rfl⟩
  counted := fun _ => by
    have h : (emptyUnit extM).lo = Plane.zeroed ∧ (emptyUnit extM).hi = Plane.zeroed ∧ (emptyUnit extM).count = 0 :=
      ⟨rfl, rfl, rfl⟩
    rewrite [h.1, h.2.1, h.2.2, popCount_zeroed]
    decide

theorem fivePlane_popCount : (Plane.mk .zero [(0, 0x20)]).popCount = 1 := by
  have h := popCount_write Plane.zeroed rfl 0 (by decide) 0x20
  have hw : Plane.zeroed.write 0 0x20 = Plane.mk .zero [(0, 0x20)] := by decide
  have hp : popcount64 0x20 = 1 := by decide
  have hz : popcount64 0 = 0 := by decide
  have key : ∀ n : Nat, n + 0 = 0 + 1 → n = 1 := by omega
  rewrite [hw, zeroed_read, hp, hz, popCount_zeroed] at h
  exact key _ h

theorem fiveUnit_inv (extM : Bool) : (fiveUnit extM).Inv where
  wf := rfl
  defined := fun _ => ⟨rfl, rfl⟩
  counted := fun _ => by
    have h : (fiveUnit extM).lo = Plane.mk .zero [(0, 0x20)] ∧ (fiveUnit extM).hi = Plane.zeroed ∧
      (fiveUnit extM).count = 1 := ⟨rfl, rfl, rfl⟩
    rewrite [h.1, h.2.1, h.2.2, fivePlane_popCount, popCount_zeroed]
    decide

theorem inv_withInputs {s : State} (h : s.Inv) (xs : List Input) : State.Inv { s with inputs := xs } :=
  ⟨h.wf, h.defined, h.counted⟩

theorem witness_DecodeOfEncodeIsIdentity :
    wellFormed true (.merge 0xFFFFFFFF 0xFFFFFFFFFFFFFFFF) = true ∧ wellFormed false (.register 0x80000000) = true := by decide

theorem witness_EncodeOfDecodeKeepsUsedFields :
    decode true 0x5FFFFFFFFFFFFFFFFFFFFFFFF = .ok (.merge 0xFFFFFFFF 0xFFFFFFFFFFFFFFFF) := by decide

theorem witness_UnusedFieldsAreIgnored :
    globalOf 0x0A000001 = globalOf 0x0A00003F ∧ globalOf 0x0A00003F ≠ globalOf 0x0A000040 := by decide

theorem witness_OpcodeTableSelectsWhatDecodes :
    decode false 0x3000000000000000000000000 = .ok .count ∧
    decode false 0x4000000000000000000000000 = .error (.extensionAbsent 0x4) ∧
    (opcodeTable.filter fun r => r.selects 0x4000000000000000000000000).length = 1 := by decide

theorem witness_StepRunsTheDecodedCommand :
    { emptyUnit true with inputs := [.command 0x2000000050000000000000000] }.inputs = [.command 0x2000000050000000000000000] ∧
    decode (emptyUnit true).extM 0x2000000050000000000000000 = .ok (.register 5) ∧
    tableCommandWord 104 0x2000000050000000000000000 = some 0x2000000050000000000000000 := by decide

theorem witness_WaitingUnitHoldsItsState : (fiveUnit false).inputs = [] := rfl

/-- One case for each alternative, at its boundary, and the nearest opcodes outside. -/
theorem witness_ReservedOpcodeIsAnsweredIllegal :
    0x6 ≤ (0x6 : Opcode).toNat ∧ 0x6 ≤ (0xF : Opcode).toNat ∧ (State.resetFor false).extM = false ∧
    ¬(0x6 ≤ (0x5 : Opcode).toNat) ∧ ¬((0x5 : Opcode) = 0x0) ∧ (State.resetFor true).extM ≠ false := by decide

theorem witness_CommandsBeforeConstructAreNotReady :
    (State.resetFor true).ready = false ∧ wellFormed (State.resetFor true).extM (.merge 0 1) = true ∧
    (State.resetFor false).ready = false ∧ wellFormed (State.resetFor false).extM (.register 0) = true ∧
    exec .construct (State.resetFor false) = .next (respond .done 0 (constructed (State.resetFor false))) ∧
    (fiveUnit false).ready = true ∧ exec .count (fiveUnit false) = .next (respond .done 1 (fiveUnit false)) :=
  ⟨rfl, rfl, rfl, rfl, rfl, rfl, rfl⟩

theorem witness_ExtensionCommandsNeedTheExtension : (fiveUnit false).extM = false := rfl

/-- A command, a word that is refused, and a reset. -/
theorem witness_OneResponsePerCommand :
    step (present 0x1000000000000000000000000 (State.resetFor true)) =
      .next (respond .done 0 (constructed (State.resetFor true))) ∧
    step (present 0x0000000000000000000000000 (fiveUnit true)) = .next (refuse .illegal (fiveUnit true)) ∧
    step { fiveUnit true with inputs := [.reset] } = .next (resetEvent (fiveUnit true)) :=
  ⟨rfl, rfl, rfl⟩

theorem witness_OnlyConstructAndResetWriteReady :
    isConstruct true (.command 0x1000000000000000000000000) = true ∧ isReset (.resetDuring 0x3000000000000000000000000) = true ∧
    isConstruct true (.command 0x3000000000000000000000000) = false := by decide

theorem witness_ResetLeavesTheContentsUnspecified :
    isReset .reset = true ∧ isReset (.resetDuring 0x2000000050000000000000000) = true ∧
    { fiveUnit true with inputs := [.reset] }.inputs = [.reset] := by decide

/-- Two units not constructed that differ in all that is unspecified. -/
theorem witness_ResponsesDoNotDependOnUnspecifiedContents :
    sameVisible (State.resetFor false)
      { State.resetFor false with lo := ⟨.zero, [(7, 1)]⟩, hi := ⟨.unspecified 9, []⟩, count := 5, draws := 12 } :=
  ⟨rfl, rfl, rfl, rfl, fun h => Bool.noConfusion h⟩

/-- At the four corners of the split. -/
theorem witness_RegisterNewSetsTheBitAndCounts :
    Memory.wf (fiveUnit false) = true ∧ (fiveUnit false).ready = true ∧ bitTest 0 (fiveUnit false) = false ∧
    bitTest 0x7FFFFFFF (fiveUnit false) = false ∧ bitTest 0x80000000 (fiveUnit false) = false ∧
    bitTest 0xFFFFFFFF (fiveUnit false) = false := by decide

theorem witness_RegisterPresentChangesNothing :
    (fiveUnit false).ready = true ∧ bitTest 5 (fiveUnit false) = true := by decide

theorem witness_RegisterTwiceCountsOnce :
    Memory.wf (emptyUnit true) = true ∧ (emptyUnit true).ready = true ∧
    decode (emptyUnit true).extM 0x3000000000000000000000000 ≠ .ok .construct ∧
    decode (emptyUnit true).extM 0x0000000000000000000000000 ≠ .ok .construct ∧
    decode (emptyUnit true).extM 0x5000000000000000000000001 ≠ .ok .construct := by decide

theorem witness_RegisterFrame :
    Memory.wf (fiveUnit true) = true ∧ exec (.register 5) (fiveUnit true) = .next (respond .present 0 (fiveUnit true)) :=
  ⟨rfl, rfl⟩

theorem witness_CountAnswersTheRunningCount : (fiveUnit false).ready = true := rfl

theorem witness_RdwordAnswersTheWord : (fiveUnit true).extM = true ∧ (fiveUnit true).ready = true := ⟨rfl, rfl⟩

theorem witness_CountAndRdwordWriteNothing :
    exec .count (fiveUnit true) = .next (respond .done 1 (fiveUnit true)) ∧
    exec (.rdword 0x3F) (fiveUnit true) = .next (respond .done 0x20 (fiveUnit true)) := ⟨rfl, rfl⟩

theorem witness_MergeOrsTheWordAndCounts :
    Memory.wf (fiveUnit true) = true ∧ (fiveUnit true).extM = true ∧ (fiveUnit true).ready = true := ⟨rfl, rfl, rfl⟩

/-- A merge that sets all 64 bits of a word of 0s, and one that sets no new bit. -/
theorem witness_MergeAddsTheGrowthOfTheWord :
    Memory.wf (fiveUnit true) = true ∧ (fiveUnit true).extM = true ∧ (fiveUnit true).ready = true ∧
    wordOf 0xFFFFFFFF (fiveUnit true) = 0 ∧ popcount64 (0xFFFFFFFFFFFFFFFF &&& ~~~wordOf 0xFFFFFFFF (fiveUnit true)) = 64 ∧
    wordOf 0 (fiveUnit true) = 0x20 ∧ popcount64 (0x20 &&& ~~~wordOf 0 (fiveUnit true)) = 0 := by decide

theorem witness_MergeFrame :
    Memory.wf (State.resetFor true) = true ∧
    exec (.merge 0xFFFFFFFF 1) (State.resetFor true) = .next (refuse .notReady (State.resetFor true)) := ⟨rfl, rfl⟩

theorem witness_RegistersAndMergesCommute :
    Memory.wf (fiveUnit false) = true ∧ (fiveUnit false).ready = true ∧ wellFormed (fiveUnit false).extM (.register 5) = true ∧
    Memory.wf (fiveUnit true) = true ∧ (fiveUnit true).ready = true ∧ wellFormed (fiveUnit true).extM (.merge 0 0x21) = true := by
  decide

theorem witness_WordWriteChangesOneWord : Memory.wf (fiveUnit true) = true := rfl

theorem witness_EqualPlanesAreEqualData :
    (Plane.mk .zero [(0, 0x20), (0x1FFFFFF, 1)]).wf = true ∧
    Plane.mk .zero [(0, 0x20), (0x1FFFFFF, 1)] = ((Plane.zeroed.write 0x1FFFFFF 1).write 0 0x20) := by decide

theorem witness_StepKeepsInv :
    (fiveUnit true).Inv ∧ step (fiveUnit true) = .next (fiveUnit true) ∧
    ({ fiveUnit true with inputs := [.command 0x0] } : State).Inv :=
  ⟨fiveUnit_inv true, rfl, inv_withInputs (fiveUnit_inv true) _⟩

theorem witness_CountNeverWraps : (fiveUnit true).Inv ∧ (fiveUnit true).ready = true ∧ bitTest 6 (fiveUnit true) = false :=
  ⟨fiveUnit_inv true, rfl, by decide⟩

theorem witness_CountIsTheNumberOfMembers : (fiveUnit false).Inv ∧ (fiveUnit false).ready = true :=
  ⟨fiveUnit_inv false, rfl⟩

theorem witness_CommandsRefineTheSetOfMembers :
    (fiveUnit false).Inv ∧ wellFormed (fiveUnit false).extM (.register 5) = true ∧ (emptyUnit true).Inv ∧
    wellFormed (emptyUnit true).extM (.merge 0xFFFFFFFF 1) = true :=
  ⟨fiveUnit_inv false, rfl, emptyUnit_inv true, rfl⟩

/-- A pass that is open, and one that reset has closed. -/
theorem witness_MembershipInvariant :
    Memory.wf (State.resetFor false) = true ∧ (State.resetFor false).ready = false ∧
    passOf false [.command 0x1000000000000000000000000, .command 0x2000000050000000000000000] = some [.register 5] ∧
    passOf false [.command 0x1000000000000000000000000, .reset] = none := ⟨rfl, rfl, by decide, by decide⟩

theorem witness_RegistrationIsMonotonic :
    (fiveUnit true).Inv ∧ decode (fiveUnit true).extM 0x2000000060000000000000000 ≠ .ok .construct ∧
    decode (fiveUnit true).extM 0x1000000000000000000000000 = .ok .construct ∧ bitTest 5 (fiveUnit true) = true ∧
    step { fiveUnit true with inputs := [.command 0x0] } = .next (refuse .illegal (fiveUnit true)) :=
  ⟨fiveUnit_inv true, by decide, by decide, by decide, rfl⟩

theorem witness_CountIsNewResponsesPlusMergedBits :
    (fiveUnit true).Inv ∧ (fiveUnit true).ready = true ∧
    decode (fiveUnit true).extM 0x2000000060000000000000000 ≠ .ok .construct ∧
    decode (fiveUnit true).extM 0x5000000000000000000000003 ≠ .ok .construct :=
  ⟨fiveUnit_inv true, rfl, by decide, by decide⟩

/-- B holds one word that is not 0, word 0, and the host merges it. -/
theorem witness_MergingAUnitGivesTheUnion :
    (emptyUnit true).Inv ∧ (fiveUnit true).Inv ∧ (emptyUnit true).ready = true ∧ (fiveUnit true).ready = true ∧
    (emptyUnit true).extM = true ∧ (fiveUnit true).extM = true ∧
    ∀ v, wordOf v (fiveUnit true) ≠ 0 → globalOf v ∈ [(0 : GlobalIndex)] := by
  refine ⟨emptyUnit_inv true, fiveUnit_inv true, rfl, rfl, rfl, rfl, fun v hv => ?_⟩
  have hn := num_planeOf v
  have hw := toNat_widxOf v
  have hl := v.isLt
  have h0 : planeOf v = .low ∧ (widxOf v).toNat = 0 := by
    by_contra hc
    refine hv ?_
    cases hp : planeOf v with
    | high => simp [wordOf, wordRead, hp, fiveUnit, unitWith, Plane.read, lookupCell, Background.word]
    | low =>
      have hne : ¬ 0 = (widxOf v).toNat := fun h => hc ⟨hp, h.symm⟩
      simp [wordOf, wordRead, hp, fiveUnit, unitWith, Plane.read, lookupCell, Background.word, hne]
  rw [h0.1] at hn
  rw [h0.2] at hw
  have hg := toNat_globalOf v
  simp only [PlaneSelect.num] at hn
  have h26 : globalOf v = 0 := BitVec.eq_of_toNat_eq (by
    show (globalOf v).toNat = 0
    omega)
  rw [h26]
  exact List.mem_singleton.mpr rfl

theorem witness_UnitsShareNoState : 1 < [emptyUnit true, fiveUnit true].length := by decide

theorem witness_RegisterIpIsTheAddressFormula :
    (0 < 256 ∧ 255 < 256 ∧ 255 < 256 ∧ 0 < 256) ∧ ¬(255 < 256 ∧ 255 < 256 ∧ 255 < 256 ∧ 256 < 256) := by decide

theorem witness_CountingPassReportsTheDistinctAddresses :
    ({ State.resetFor false with inputs := (countingPass ["10.0.0.1".toList] false).map .command } : State).inputs =
      (countingPass ["10.0.0.1".toList] false).map .command := rfl

end Sys2Proof.Tests
end

section
/-! SUPPORT. The statements of spec/10_state.md: the place of an address value, the bits and `COUNT` after a command,
and the pass a stream of inputs leaves open (R18, R21, R25). -/

namespace Sys2Proof.Machine

/-! ### The place of an address value and the positions of a MERGE -/

theorem PlaneSelect.num_injective : Function.Injective PlaneSelect.num := by
  intro k j h
  cases k <;> cases j <;> simp_all [PlaneSelect.num]

/-- The index converter and R32 undo each other. -/
theorem position_placeOf (v : AddressValue) : (placeOf v).position = v.toNat := by
  have hlt := v.isLt
  simp only [Place.position, placeOf, num_planeOf, toNat_widxOf, toNat_offOf, Config.planeBits, Config.wordBits]
  omega

theorem placeOf_inj {v v' : AddressValue} : placeOf v = placeOf v' ↔ v = v' := by
  refine ⟨fun h => BitVec.eq_of_toNat_eq ?_, congrArg placeOf⟩
  rw [← position_placeOf v, h, position_placeOf]

/-- Two address values lie in the same word of the same plane exactly when their global word index is the same (R39). -/
theorem sameWord_iff_div {v a : AddressValue} :
    (planeOf v = planeOf a ∧ widxOf v = widxOf a) ↔ v.toNat / 64 = a.toNat / 64 := by
  have hv := v.isLt
  have ha := a.isLt
  rw [← PlaneSelect.num_injective.eq_iff, ← BitVec.toNat_inj, num_planeOf, num_planeOf, toNat_widxOf, toNat_widxOf]
  omega

theorem mem_mergeSet {a : AddressValue} {d : BitmapWord} {p : Nat} :
    p ∈ mergeSet a d ↔ p / 64 = a.toNat / 64 ∧ d.getLsbD (p % 64) = true := by
  simp only [mergeSet, Finset.mem_image, Finset.mem_filter, Finset.mem_range, toNat_globalOf]
  constructor
  · rintro ⟨i, ⟨hi, hd⟩, rfl⟩
    have hmod : (a.toNat / 64 * 64 + i) % 64 = i := by omega
    exact ⟨by omega, by rwa [hmod]⟩
  · rintro ⟨hg, hd⟩
    exact ⟨p % 64, ⟨by omega, hd⟩, by omega⟩

/-- Any bit of the store after a MERGE's write: 1 where the MERGE marks, else as before (R102). -/
theorem bitTest_mergeWrite {s : State} (h : Memory.wf s = true) (a v : AddressValue) (d : BitmapWord) :
    bitTest v (wordWrite (planeOf a) (widxOf a) (wordOf a s ||| d) s) =
      (bitTest v s || decide (v.toNat ∈ mergeSet a d)) := by
  simp only [bitTest, wordOf_wordWrite h, mem_mergeSet, ← sameWord_iff_div, toNat_offOf]
  by_cases hw : planeOf v = planeOf a ∧ widxOf v = widxOf a
  · have hword : wordOf v s = wordOf a s := by simp only [wordOf, hw]
    simp [hw, hword]
  · simp [hw]

@[simp] theorem bitTest_refuse (s : State) (st : Status) (v : AddressValue) :
    bitTest v (refuse st s) = bitTest v s := bitTest_respond s st 0 v

@[simp] theorem bitTest_setInputs (s : State) (xs : List Input) (v : AddressValue) :
    bitTest v { s with inputs := xs } = bitTest v s := by
  simp [bitTest, wordOf, wordRead]

/-! ### What a command does to the bits and to `COUNT` -/

/-- A word decodes only to a command the unit has (R65, R68). -/
theorem wellFormed_of_decode {extM : Bool} {cw : CommandWord} {i : Instr} (h : decode extM cw = .ok i) :
    wellFormed extM i = true := by
  cases extM with
  | true => rfl
  | false =>
    simp only [decode, Bool.false_eq_true, if_false] at h
    split_ifs at h <;> cases h <;> rfl

/-- Before CONSTRUCT every other command is refused (R132, R135). -/
theorem exec_of_not_ready {s : State} {i : Instr} (hr : s.ready = false) (hc : i ≠ .construct) :
    ∃ st, exec i s = .next (refuse st s) := by
  obtain ⟨st, q, u, he, -, -, -, -, hill, hnr, hu, hq⟩ := exec_ports i s
  have hst : st = .illegal ∨ st = .notReady := by
    rw [hill, hnr]
    cases i.needsExtM <;> cases s.extM <;> simp [hr, hc]
  have hq0 : q = 0 := hq (by rintro rfl; simp at hst)
  exact ⟨st, by rw [he, hu hst, hq0]; rfl⟩

/-- `t` is `s` after a command other than CONSTRUCT on a constructed unit: every bit the command marks is 1, every other
bit is as before, and `COUNT` has gone up by at most the bits of a word. -/
structure Marked (i : Instr) (s t : State) : Prop where
  wf : Memory.wf t = true
  ready : t.ready = true
  bits : ∀ v, bitTest v t = (bitTest v s || marks v.toNat i)
  counted : ∃ n ≤ 64, t.count = s.count + BitVec.ofNat 33 n

/-- A response alone is the whole effect of a command that marks no position whose bit is 0. -/
theorem marked_respond {s : State} {i : Instr} (hwf : Memory.wf s = true) (hr : s.ready = true)
    (hi : ∀ v, marks v.toNat i = true → bitTest v s = true) (st : Status) (q : BitmapWord) :
    Marked i s (respond st q s) where
  wf := hwf
  ready := hr
  bits v := by
    rw [bitTest_respond, Bool.eq_iff_iff, Bool.or_eq_true]
    exact ⟨.inl, fun h => h.elim id (hi v)⟩
  counted := ⟨0, by omega, by simp⟩

/-- On a constructed unit every command other than CONSTRUCT marks its positions and clears none (R85, R91, R95, R101,
R102). -/
theorem exec_marked {s : State} {i : Instr} (hwf : Memory.wf s = true) (hr : s.ready = true)
    (hx : wellFormed s.extM i = true) (hc : i ≠ .construct) : ∃ t, exec i s = .next t ∧ Marked i s t := by
  cases i with
  | construct => exact absurd rfl hc
  | register v =>
    obtain ⟨h, -⟩ | ⟨-, hb, he⟩ | ⟨-, -, he⟩ := execRegister_cases v s
    · simp [hr] at h
    · refine ⟨_, he, marked_respond hwf hr (fun v' hv' => ?_) _ _⟩
      rwa [← BitVec.eq_of_toNat_eq (of_decide_eq_true hv')]
    · refine ⟨_, he, wf_bitSet hwf v, by simpa using hr, fun v' => ?_, 1, by omega, by simp⟩
      simp [bitTest_bitSet hwf, marks, placeOf_inj, BitVec.toNat_inj, Bool.or_comm, eq_comm]
  | count =>
    obtain ⟨h, -⟩ | ⟨-, he⟩ := execCount_cases s
    · simp [hr] at h
    · exact ⟨_, he, marked_respond hwf hr (by simp [marks]) _ _⟩
  | rdword a =>
    obtain ⟨h, -⟩ | ⟨-, h, -⟩ | ⟨-, -, he⟩ := execRdword_cases a s
    · simp [wellFormed, Instr.needsExtM, h] at hx
    · simp [hr] at h
    · exact ⟨_, he, marked_respond hwf hr (by simp [marks]) _ _⟩
  | merge a d =>
    obtain ⟨h, -⟩ | ⟨-, h, -⟩ | ⟨-, -, he⟩ := execMerge_cases a d s
    · simp [wellFormed, Instr.needsExtM, h] at hx
    · simp [hr] at h
    · refine ⟨_, he, wf_wordWrite hwf _ _ _, by simpa using hr, fun v => ?_, _,
        popcount64_le (d &&& ~~~wordOf a s), by simp⟩
      simp [bitTest_mergeWrite hwf, marks]

/-- The aggregator does not wrap on a constructed unit, whatever one command adds: `COUNT` is at most 2^32 (R22). -/
theorem count_le_of_inv {s : State} (h : s.Inv) (hr : s.ready = true) : s.count.toNat ≤ 2 ^ 32 := by
  have hlo := popCount_le s.lo
  have hhi := popCount_le s.hi
  have hcount := h.counted hr
  simp only [Config.planeWords] at hlo hhi
  omega

theorem Marked.count_le {i : Instr} {s t : State} (h : Marked i s t) (hs : s.count.toNat ≤ 2 ^ 32) :
    s.count.toNat ≤ t.count.toNat := by
  obtain ⟨n, hn, hcount⟩ := h.counted
  rw [hcount, BitVec.toNat_add, BitVec.toNat_ofNat]
  omega

/-- No command other than CONSTRUCT clears a bit or lowers `COUNT`: before CONSTRUCT it is refused, and after it it only
marks (R21). -/
theorem exec_monotone {s t : State} {i : Instr} (hinv : s.Inv) (hx : wellFormed s.extM i = true) (hc : i ≠ .construct)
    (he : exec i s = .next t) : (∀ v, bitTest v s = true → bitTest v t = true) ∧ s.count.toNat ≤ t.count.toNat := by
  cases hr : s.ready with
  | false =>
    obtain ⟨st, hrefuse⟩ := exec_of_not_ready hr hc
    obtain rfl : t = refuse st s := by simpa [he] using hrefuse
    simp
  | true =>
    obtain ⟨u, hu, hmarked⟩ := exec_marked hinv.wf hr hx hc
    obtain rfl : t = u := by simpa [he] using hu
    exact ⟨fun v hv => by simp [hmarked.bits, hv], hmarked.count_le (count_le_of_inv hinv hr)⟩

/-! ### The pass a stream of inputs leaves open -/

/-- A refused word is no command of the pass. -/
theorem passStep_of_decode_error {extM : Bool} {cw : CommandWord} {e : Illegal} (h : decode extM cw = .error e)
    (pass : Option (List Instr)) : passStep extM pass (.command cw) = pass := by
  simp only [passStep, h]

theorem passStep_of_decode_construct {extM : Bool} {cw : CommandWord} (h : decode extM cw = .ok .construct)
    (pass : Option (List Instr)) : passStep extM pass (.command cw) = some [] := by
  simp only [passStep, h]

theorem passStep_of_decode_ok {extM : Bool} {cw : CommandWord} {i : Instr} (h : decode extM cw = .ok i)
    (hc : i ≠ .construct) (pass : Option (List Instr)) :
    passStep extM pass (.command cw) = pass.map (· ++ [i]) := by
  cases i with
  | construct => exact absurd rfl hc
  | register v => simp only [passStep, h]
  | count => simp only [passStep, h]
  | rdword a => simp only [passStep, h]
  | merge a d => simp only [passStep, h]

/-- The unit's state fits the pass: it is ready exactly when a pass is open, and then its 1 bits are those the commands
of the pass marked (R17, R18). The store is in canonical form, which a step needs. -/
structure FitsPass (pass : Option (List Instr)) (s : State) : Prop where
  wf : Memory.wf s = true
  ready : s.ready = pass.isSome
  bits : ∀ cs, pass = some cs → ∀ v : AddressValue, bitTest v s = cs.any (marks v.toNat)

theorem fitsPass_none {s : State} (hwf : Memory.wf s = true) (hr : s.ready = false) : FitsPass none s :=
  ⟨hwf, by simp [hr], by simp⟩

theorem FitsPass.after_refuse {pass : Option (List Instr)} {s : State} (h : FitsPass pass s) (st : Status) :
    FitsPass pass (refuse st s) :=
  ⟨h.wf, h.ready, by simpa using h.bits⟩

/-- A command other than CONSTRUCT joins the pass, if one is open. -/
theorem FitsPass.after_exec {pass : Option (List Instr)} {s : State} {i : Instr} (h : FitsPass pass s)
    (hx : wellFormed s.extM i = true) (hc : i ≠ .construct) :
    ∃ t, exec i s = .next t ∧ FitsPass (pass.map (· ++ [i])) t := by
  cases pass with
  | none =>
    obtain ⟨st, he⟩ := exec_of_not_ready h.ready hc
    exact ⟨_, he, h.after_refuse st⟩
  | some cs =>
    obtain ⟨t, he, ht⟩ := exec_marked h.wf h.ready hx hc
    refine ⟨t, he, ht.wf, ht.ready, ?_⟩
    rintro _ ⟨rfl⟩ v
    simp [ht.bits, h.bits cs rfl]

/-- One input takes a state that fits a pass to one that fits the pass after that input. -/
theorem FitsPass.after_handle {pass : Option (List Instr)} {s : State} (h : FitsPass pass s) (x : Input) :
    ∃ t, handle x s = .next t ∧ t.extM = s.extM ∧ t.inputs = s.inputs ∧ FitsPass (passStep s.extM pass x) t := by
  obtain ⟨hx, he⟩ | ⟨cw, e, rfl, hd, he⟩ | ⟨cw, i, rfl, hd, he⟩ := handle_cases x s
  · have hpass : passStep s.extM pass x = none := by obtain rfl | ⟨cw, rfl⟩ := hx <;> rfl
    rw [hpass]
    exact ⟨_, he, rfl, rfl, fitsPass_none rfl rfl⟩
  · rw [passStep_of_decode_error hd]
    exact ⟨_, he, rfl, rfl, h.after_refuse .illegal⟩
  · by_cases hc : i = .construct
    · subst hc
      rw [passStep_of_decode_construct hd]
      exact ⟨_, he, rfl, rfl, rfl, rfl, by simp⟩
    · obtain ⟨t, ht, hfit⟩ := h.after_exec (wellFormed_of_decode hd) hc
      obtain ⟨st, q, u, hu, -, hext, hin, -⟩ := exec_ports i s
      obtain rfl : t = respond st q u := by simpa [ht] using hu
      rw [passStep_of_decode_ok hd hc]
      exact ⟨_, he.trans ht, hext, hin, hfit⟩

/-- A run over the whole stream: the unit fits the pass the stream leaves open. -/
theorem FitsPass.after_run (xs : List Input) {pass : Option (List Instr)} {s : State} (h : FitsPass pass s)
    (hin : s.inputs = xs) :
    ∃ t, Host.Core.run core xs.length s = .next t ∧ t.inputs = [] ∧
      FitsPass (xs.foldl (passStep s.extM) pass) t := by
  induction xs generalizing pass s with
  | nil => exact ⟨s, rfl, hin, h⟩
  | cons x xs ih =>
    have htaken : FitsPass pass { s with inputs := xs } := ⟨h.wf, h.ready, by simpa using h.bits⟩
    obtain ⟨u, hu, hext, huin, hfit⟩ := htaken.after_handle x
    have hstep : step s = .next u := by simpa only [step, takeInput, hin] using hu
    obtain ⟨t, ht, htin, htfit⟩ := ih hfit huin
    rw [hext] at htfit
    exact ⟨t, (run_succ _ hstep).trans ht, htin, htfit⟩

/-! ### The statements -/

/-- Settles O44: `FitsPass` holds before CONSTRUCT and every input keeps it. -/
theorem membershipInvariant : Obligations.MembershipInvariant := by
  intro s xs hwf hr hin
  obtain ⟨t, hrun, htin, hfit⟩ := (fitsPass_none hwf hr).after_run xs hin
  refine ⟨t, hrun, htin, by rw [hfit.ready]; rfl, fun pass hpass p hp => ?_⟩
  rw [hfit.bits pass hpass, BitVec.toNat_ofNat, Nat.mod_eq_of_lt hp]

/-- Settles O45: a refused word changes nothing, a command other than CONSTRUCT is `exec_monotone`, and CONSTRUCT zeroes
both planes. -/
theorem registrationIsMonotonic : Obligations.RegistrationIsMonotonic := by
  intro s t cw rest hinv hin hstep
  have htaken : State.Inv { s with inputs := rest } := ⟨hinv.wf, hinv.defined, hinv.counted⟩
  cases hd : decode s.extM cw with
  | error e =>
    obtain rfl : refuse .illegal { s with inputs := rest } = t := by
      simpa [step, takeInput, hin, handle, accept, hd] using hstep
    simp
  | ok i =>
    have he : exec i { s with inputs := rest } = .next t := by
      simpa only [step, takeInput, hin, handle, accept, hd] using hstep
    refine ⟨fun hne => ?_, ?_⟩
    · simpa using exec_monotone htaken (wellFormed_of_decode hd) (fun hc => hne (by rw [hc])) he
    · rintro ⟨rfl⟩ v
      obtain rfl : respond .done 0 (constructed { s with inputs := rest }) = t := by
        simpa [exec, execConstruct] using he
      simp

/-- Settles O20: the next state is `constructed`, whose planes read 0 in every word. -/
theorem constructGivesTheInitialState : Obligations.ConstructGivesTheInitialState := by
  intro s
  exact ⟨respond .done 0 (constructed s), rfl, by simp, rfl, rfl, by simp [members], by simp, ⟨rfl, rfl, rfl⟩, rfl⟩

end Sys2Proof.Machine
end

section
/-! SUPPORT. The statements of spec/20_memory.md: the converter's slices and its inverse, a word written back, and what
BitSet changes (R32, R36 to R41, R45, R47). -/

namespace Sys2Proof.Machine

/-! ### The index converter -/

theorem toNat_posOf (v : AddressValue) : (posOf v).toNat = v.toNat % 2 ^ 31 := by
  simp only [posOf, BitVec.extractLsb'_toNat, Nat.shiftRight_zero]

/-- The comparison of R36 as a quotient: an address value has 32 bits. -/
theorem planeByValue_eq_div (v : AddressValue) : planeByValue v = v.toNat / 2 ^ 31 := by
  have hlt := v.isLt
  unfold planeByValue Config.split
  split <;> omega

/-- The rebasing of R37 as a remainder: 2^31 is subtracted at most once. -/
theorem posByValue_eq_mod (v : AddressValue) : posByValue v = v.toNat % 2 ^ 31 := by
  have hlt := v.isLt
  unfold posByValue Config.rebase
  rw [planeByValue_eq_div]
  split <;> omega

theorem PlaneSelect.num_le_one (k : PlaneSelect) : k.num ≤ 1 := by cases k <;> decide

theorem Place.position_lt (p : Place) : p.position < 2 ^ 32 := by
  have hplane := p.plane.num_le_one
  have hwidx := p.widx.isLt
  have hoff := p.off.isLt
  simp only [Place.position, Config.planeBits, Config.wordBits]
  omega

/-- A position has its plane, word index and offset as digits, so no two places share one (R32, R41). -/
theorem Place.position_injective : Function.Injective Place.position := by
  rintro ⟨k, i, o⟩ ⟨k', i', o'⟩ h
  have hk := k.num_le_one
  have hk' := k'.num_le_one
  simp only [Place.position, Config.planeBits, Config.wordBits] at h
  simp only [Place.mk.injEq, ← PlaneSelect.num_injective.eq_iff, ← BitVec.toNat_inj]
  omega

/-- Every place is the place of its own position: the other half of `position_placeOf`. -/
theorem placeOf_position (p : Place) : placeOf (BitVec.ofNat 32 p.position) = p := by
  apply Place.position_injective
  rw [position_placeOf, BitVec.toNat_ofNat, Nat.mod_eq_of_lt p.position_lt]

/-! ### Planes in canonical form that read the same, and a word written back -/

theorem mem_of_lookupCell {i : Nat} {w : BitmapWord} {l : List (Nat × BitmapWord)} (h : lookupCell i l = some w) :
    (i, w) ∈ l := by
  induction l with
  | nil => simp [lookupCell] at h
  | cons c rest ih =>
    obtain ⟨k, x⟩ := c
    simp only [lookupCell] at h
    split_ifs at h with hk
    · obtain rfl := Option.some.inj h
      exact hk ▸ List.mem_cons_self
    · exact List.mem_cons_of_mem _ (ih h)

/-- Two rising lists of cells that list the same word under every index are the same list. -/
theorem eq_of_lookupCell_eq {least : Nat} {l l' : List (Nat × BitmapWord)} (h : risingFrom least l = true)
    (h' : risingFrom least l' = true) (heq : ∀ i, lookupCell i l = lookupCell i l') : l = l' := by
  induction l generalizing least l' with
  | nil =>
    cases l' with
    | nil => rfl
    | cons c' rest' => simpa [lookupCell] using heq c'.1
  | cons c rest ih =>
    obtain ⟨k, x⟩ := c
    cases l' with
    | nil => simpa [lookupCell] using heq k
    | cons c' rest' =>
      obtain ⟨k', x'⟩ := c'
      simp only [risingFrom, Bool.and_eq_true, decide_eq_true_eq] at h h'
      have hbelow : ∀ i ≤ k, lookupCell i rest = none := fun i hi => lookupCell_below i _ _ h.2 (by omega)
      have hbelow' : ∀ i ≤ k', lookupCell i rest' = none := fun i hi => lookupCell_below i _ _ h'.2 (by omega)
      simp only [lookupCell] at heq
      obtain rfl : k = k' := by
        rcases Nat.lt_trichotomy k k' with hlt | hk | hlt
        · simpa [hbelow' k hlt.le, hlt.ne'] using heq k
        · exact hk
        · simpa [hbelow k' hlt.le, hlt.ne'] using heq k'
      obtain rfl : x = x' := by simpa using heq k
      rw [ih h.2 h'.2 fun i => ?_]
      by_cases hi : i = k
      · rw [hi, hbelow k le_rfl, hbelow' k le_rfl]
      · simpa [Ne.symm hi] using heq i

/-- In canonical form the listed words are those that differ from the background. -/
theorem lookupCell_words {p : Plane} (h : p.wf = true) (i : Nat) :
    lookupCell i p.words = if p.read i = p.background.word i then none else some (p.read i) := by
  simp only [Plane.wf, Bool.and_eq_true, List.all_eq_true, decide_eq_true_eq, bne_iff_ne] at h
  cases hl : lookupCell i p.words with
  | none => simp [Plane.read, hl]
  | some w => simp [Plane.read, hl, (h.2 _ (mem_of_lookupCell hl)).2]

/-- Equal contents are equal data: the canonical form is unique (log 6). -/
theorem Plane.eq_of_read_eq {p q : Plane} (hp : p.wf = true) (hq : q.wf = true) (hb : p.background = q.background)
    (hread : ∀ i, p.read i = q.read i) : p = q := by
  have hwords : p.words = q.words := eq_of_lookupCell_eq (wf_rising hp) (wf_rising hq) fun i => by
    rw [lookupCell_words hp, lookupCell_words hq, hb, hread]
  cases p
  cases q
  simp only [Plane.mk.injEq]
  exact ⟨hb, hwords⟩

theorem write_read {p : Plane} (h : p.wf = true) {i : Nat} (hi : i < Config.planeWords) : p.write i (p.read i) = p := by
  refine Plane.eq_of_read_eq (write_wf p h i hi _) h (write_background p i _) fun j => ?_
  rw [read_write p h]
  split_ifs with hj
  · rw [hj]
  · rfl

@[simp] theorem setPlane_plane (s : State) (k : PlaneSelect) : s.setPlane k (s.plane k) = s := by cases k <;> rfl

/-- A word written back leaves the unit as it is. -/
theorem wordWrite_wordRead {s : State} (h : Memory.wf s = true) (k : PlaneSelect) (i : WordIndex) :
    wordWrite k i (wordRead k i s) s = s := by
  simp only [wordWrite, wordRead, write_read (wf_plane h k) (widx_lt i), setPlane_plane]

/-- ORing in the mask of a bit that is 1 changes nothing. -/
theorem or_maskOf_of_getLsbD {w : BitmapWord} {k : BitOffset} (h : w.getLsbD k.toNat = true) : w ||| maskOf k = w := by
  refine BitVec.eq_of_getLsbD_eq fun j _ => ?_
  rw [BitVec.getLsbD_or, getLsbD_maskOf]
  by_cases hj : j = k.toNat
  · simp [hj, h]
  · simp [hj]

/-! ### The statements -/

/-- Settles O33: slices and arithmetic are the same quotients and remainders by 2^31 and 64. -/
theorem converterSlicesAreTheArithmetic : Obligations.ConverterSlicesAreTheArithmetic := by
  intro v
  refine ⟨?plane, ?pos, ?widx, ?off, toNat_globalOf v, ?global⟩
  case plane => rw [num_planeOf, planeByValue_eq_div]
  case pos => rw [toNat_posOf, posByValue_eq_mod]
  case widx =>
    rw [toNat_widxOf, widxByValue, posByValue_eq_mod, Config.wordBits]
    omega
  case off =>
    rw [toNat_offOf, offByValue, posByValue_eq_mod, Config.wordBits]
    omega
  case global =>
    rw [toNat_globalOf, num_planeOf, toNat_widxOf]
    omega

/-- Settles O35: `Place.position` is an inverse on both sides; the corners are evaluated. -/
theorem converterIsABijection : Obligations.ConverterIsABijection := by
  have hleft : Function.LeftInverse (fun p => BitVec.ofNat 32 p.position) placeOf := fun v => by
    simp [position_placeOf]
  exact ⟨⟨hleft.injective, fun p => ⟨_, placeOf_position p⟩⟩, position_placeOf, placeOf_position,
    by decide, by decide, by decide, by decide⟩

/-- Settles O36: the read after a write, in the written word and in the others. -/
theorem wordWriteChangesOneWord : Obligations.WordWriteChangesOneWord := by
  intro s k i w hwf
  exact ⟨by simp [wordRead_wordWrite hwf], fun k' i' hne => by rw [wordRead_wordWrite hwf, if_neg hne],
    wordWrite_count s k i w, wordWrite_ready s k i w, wf_wordWrite hwf k i w⟩

/-- Settles O37: the changed bit is the one whose place is that of `v`, and so `v` itself; a BitSet of a bit that is 1
writes the word back. -/
theorem bitSetChangesOneBit : Obligations.BitSetChangesOneBit := by
  intro s v hwf
  refine ⟨?_, fun v' => ?_, fun k i hne => ?_, fun hset => ?_⟩
  · simp [bitSet, wordOf_wordWrite hwf, maskOf]
  · simp only [bitTest_bitSet hwf, placeOf_inj]
  · rw [bitSet, wordRead_wordWrite hwf, if_neg hne]
  · rw [bitSet, or_maskOf_of_getLsbD hset, wordOf, wordWrite_wordRead hwf]

end Sys2Proof.Machine
end

section
/-! SUPPORT. Two statements of spec/30_encoding.md: the fields a command ignores, and the words answered ILLEGAL (R65 to
R68, R131). -/

namespace Sys2Proof

/-! ### The decoder, one equation per kind of opcode -/

section
variable {extM : Bool} {cw : CommandWord}

theorem decode_construct (h : opField cw = 0x1) : decode extM cw = .ok .construct := by simp [decode, h]

theorem decode_register (h : opField cw = 0x2) : decode extM cw = .ok (.register (aField cw)) := by simp [decode, h]

theorem decode_count (h : opField cw = 0x3) : decode extM cw = .ok .count := by simp [decode, h]

theorem decode_rdword (h : opField cw = 0x4) :
    decode extM cw = if extM then .ok (.rdword (aField cw)) else .error (.extensionAbsent 0x4) := by simp [decode, h]

theorem decode_merge (h : opField cw = 0x5) :
    decode extM cw = if extM then .ok (.merge (aField cw) (dField cw)) else .error (.extensionAbsent 0x5) := by
  simp [decode, h]

theorem decode_reserved (h : opField cw = 0x0 ∨ 0x6 ≤ (opField cw).toNat) :
    decode extM cw = .error (.reservedOpcode (opField cw)) := by
  have hne : opField cw ≠ 0x1 ∧ opField cw ≠ 0x2 ∧ opField cw ≠ 0x3 ∧ opField cw ≠ 0x4 ∧ opField cw ≠ 0x5 := by
    bv_omega
  simp only [decode, hne, if_false]

/-- The decoder refuses exactly the reserved opcodes and, without extension M, its two (R65, R67, R68). -/
theorem decode_eq_error_iff : (∃ e, decode extM cw = .error e) ↔
    opField cw = 0x0 ∨ 0x6 ≤ (opField cw).toNat ∨ (extM = false ∧ (opField cw = 0x4 ∨ opField cw = 0x5)) := by
  have hop : (opField cw = 0x0 ∨ 0x6 ≤ (opField cw).toNat) ∨ opField cw = 0x1 ∨ opField cw = 0x2 ∨ opField cw = 0x3 ∨
      opField cw = 0x4 ∨ opField cw = 0x5 := by bv_omega
  obtain h | h | h | h | h | h := hop
  · exact iff_of_true ⟨_, decode_reserved h⟩ (h.imp_right .inl)
  · simp [decode_construct h, h]
  · simp [decode_register h, h]
  · simp [decode_count h, h]
  · cases extM <;> simp [decode_rdword h, h]
  · cases extM <;> simp [decode_merge h, h]

end

end Sys2Proof

namespace Sys2Proof.Machine

/-! ### The command an accepted word runs -/

section
variable {cw : CommandWord} (s : State)

theorem accept_of_decode_ok {i : Instr} (h : decode s.extM cw = .ok i) : accept cw s = exec i s := by simp [accept, h]

theorem accept_of_decode_error {e : Illegal} (h : decode s.extM cw = .error e) :
    accept cw s = .next (refuse .illegal s) := by simp [accept, h]

theorem accept_construct (h : opField cw = 0x1) : accept cw s = exec .construct s :=
  accept_of_decode_ok s (decode_construct h)

theorem accept_register (h : opField cw = 0x2) : accept cw s = exec (.register (aField cw)) s :=
  accept_of_decode_ok s (decode_register h)

theorem accept_count (h : opField cw = 0x3) : accept cw s = exec .count s := accept_of_decode_ok s (decode_count h)

/-- Refused by the decoder or by the command itself, RDWORD without the extension is answered the same (log 8). -/
theorem accept_rdword (h : opField cw = 0x4) : accept cw s = exec (.rdword (aField cw)) s := by
  cases hx : s.extM <;> simp [accept, decode_rdword h, hx, exec, execRdword]

/-- Refused by the decoder or by the command itself, MERGE without the extension is answered the same (log 8). -/
theorem accept_merge (h : opField cw = 0x5) : accept cw s = exec (.merge (aField cw) (dField cw)) s := by
  cases hx : s.extM <;> simp [accept, decode_merge h, hx, exec, execMerge]

end

/-! ### Extension M uses only a[31:6] -/

/-- The global word index names one word of one plane (R39). -/
theorem globalOf_eq_iff {a a' : AddressValue} : globalOf a = globalOf a' ↔ planeOf a = planeOf a' ∧ widxOf a = widxOf a' := by
  rw [sameWord_iff_div, ← BitVec.toNat_inj, toNat_globalOf, toNat_globalOf]

theorem exec_rdword_congr {a a' : AddressValue} (h : globalOf a = globalOf a') : exec (.rdword a) = exec (.rdword a') := by
  obtain ⟨hplane, hwidx⟩ := globalOf_eq_iff.mp h
  funext s
  simp only [exec, execRdword, wordOf, hplane, hwidx]

theorem exec_merge_congr {a a' : AddressValue} (h : globalOf a = globalOf a') (d : BitmapWord) :
    exec (.merge a d) = exec (.merge a' d) := by
  obtain ⟨hplane, hwidx⟩ := globalOf_eq_iff.mp h
  funext s
  simp only [exec, execMerge, wordOf, hplane, hwidx]

/-! ### The status of a response word -/

theorem Status.code_injective : Function.Injective Status.code := fun st st' h =>
  Option.some.inj (by rw [← ofCode_code st, h, ofCode_code])

/-- Words with different status differ, whatever their data (R62, R64). -/
theorem status_eq_of_responseWord_eq {st st' : Status} {q q' : BitmapWord}
    (h : responseWord st q = responseWord st' q') : st = st' :=
  Status.code_injective (by simpa using congrArg stField h)

theorem responseWord_illegal : responseWord .illegal 0 = 0xF0000000000000000 := by decide

/-- A command the unit has never answers ILLEGAL (R68, R135). -/
theorem exec_ne_illegal {s t : State} {i : Instr} (hx : wellFormed s.extM i = true) (he : exec i s = .next t) :
    t.rsps ≠ s.rsps ++ [responseWord .illegal 0] := by
  obtain ⟨st, q, u, hu, hrsps, -, -, -, hill, -⟩ := exec_ports i s
  obtain rfl : t = respond st q u := by simpa [he] using hu
  intro hlast
  have hst : st = .illegal := status_eq_of_responseWord_eq (q := q) (q' := 0) (by simpa [hrsps] using hlast)
  obtain ⟨hneeds, habsent⟩ := hill.mp hst
  simp [wellFormed, hneeds, habsent] at hx

/-! ### The statements -/

/-- Settles O4: the decoder drops the fields an instruction has no operand for, and RDWORD and MERGE reach the store
through the plane and the word index only, which are a[31:6]. The canonical words are those of `EncodeFields`. -/
theorem unusedFieldsAreIgnored : Obligations.UnusedFieldsAreIgnored := by
  refine ⟨fun s op a a' d d' => ⟨?none, ?register, ?rdword, ?merge⟩, fun i => ?encoder⟩
  case none =>
    rintro (rfl | rfl)
    · simp [accept_construct]
    · simp [accept_count]
  case register =>
    rintro rfl
    simp [accept_register]
  case rdword =>
    rintro rfl hg
    simp [accept_rdword, exec_rdword_congr hg]
  case merge =>
    rintro rfl hg
    simp [accept_merge, exec_merge_congr hg]
  case encoder =>
    cases i with
    | construct => exact Laws.EncodeFields.construct.2
    | register v => exact (Laws.EncodeFields.register v).2
    | count => exact Laws.EncodeFields.count.2
    | rdword a => exact (Laws.EncodeFields.rdword a).2
    | merge a d => exact (Laws.EncodeFields.merge a d).2

/-- Settles O11: the listed words are those the decoder refuses, and what it lets through is a command the unit has. -/
theorem reservedOpcodeIsAnsweredIllegal : Obligations.ReservedOpcodeIsAnsweredIllegal := by
  intro s op a d
  have hrefused := decode_eq_error_iff (extM := s.extM) (cw := commandWord op a d)
  rw [opField_commandWord] at hrefused
  rw [← hrefused, step_present, ← responseWord_illegal]
  refine ⟨?refused, fun hok t ht => ?decoded⟩
  case refused =>
    rintro ⟨e, he⟩
    exact ⟨refuse .illegal s, accept_of_decode_error s he, ⟨rfl, rfl, rfl, rfl⟩, ⟨rfl, rfl, rfl⟩, rfl⟩
  case decoded =>
    cases hd : decode s.extM (commandWord op a d) with
    | error e => exact absurd ⟨e, hd⟩ hok
    | ok i =>
      rw [accept_of_decode_ok s hd] at ht
      exact exec_ne_illegal (wellFormed_of_decode hd) ht

end Sys2Proof.Machine
end

section
/-! SUPPORT. The statements of spec/41_register.md: who is answered NOTREADY, the frame of REGISTER, and the bit of an
address value kept through a pass (R86, R88, R91, R96, R132). -/

namespace Sys2Proof.Machine

/-! ### The ports and the status of a command -/

/-- No command touches the parameter, the command port or the counter of the free values. -/
theorem exec_samePort {s t : State} {i : Instr} (he : exec i s = .next t) : samePort s t := by
  obtain ⟨st, q, u, hu, -, hext, hin, hdraws, -⟩ := exec_ports i s
  obtain rfl : t = respond st q u := by simpa [he] using hu
  exact ⟨hext, hin, hdraws⟩

theorem responseWord_notReady : responseWord .notReady 0 = 0xE0000000000000000 := by decide

theorem responseWord_present : responseWord .present 0 = 0x20000000000000000 := by decide

/-- Before CONSTRUCT every other command of the unit is refused NOTREADY and has no other effect (R132). -/
theorem exec_notReady {s : State} {i : Instr} (hr : s.ready = false) (hc : i ≠ .construct)
    (hx : wellFormed s.extM i = true) : exec i s = .next (refuse .notReady s) := by
  obtain ⟨st, q, u, he, -, -, -, -, -, hnr, hu, hq⟩ := exec_ports i s
  have hext : i.needsExtM = true → s.extM = true := fun hneeds => by simpa [wellFormed, hneeds] using hx
  obtain rfl : st = .notReady := hnr.mpr ⟨hc, hext, hr⟩
  obtain rfl : u = s := hu (.inr rfl)
  obtain rfl : q = 0 := hq (by decide)
  exact he

/-- CONSTRUCT, or any command on a constructed unit, is never answered NOTREADY (R132). -/
theorem exec_ne_notReady {s t : State} {i : Instr} (h : i = .construct ∨ s.ready = true) (he : exec i s = .next t) :
    t.rsps ≠ s.rsps ++ [responseWord .notReady 0] := by
  obtain ⟨st, q, u, hu, hrsps, -, -, -, -, hnr, -⟩ := exec_ports i s
  obtain rfl : t = respond st q u := by simpa [he] using hu
  intro hlast
  have hst : st = .notReady := status_eq_of_responseWord_eq (q := q) (q' := 0) (by simpa [hrsps] using hlast)
  obtain ⟨hc, -, hr⟩ := hnr.mp hst
  exact h.elim hc (by simp [hr])

/-! ### The bits of the word a BitSet writes -/

/-- BitSet changes no bit of its word but its own (R47). -/
theorem getLsbD_wordOf_bitSet {s : State} (h : Memory.wf s = true) (v : AddressValue) {j : Nat}
    (hj : j ≠ (offOf v).toNat) : (wordOf v (bitSet v s)).getLsbD j = (wordOf v s).getLsbD j := by
  simp [bitSet, wordOf_wordWrite h, getLsbD_maskOf, hj]

/-! ### An address value that is registered stays so through the pass -/

/-- `v` is registered on a constructed unit: its bit is 1. The store is in canonical form, which a step needs. -/
structure Registered (v : AddressValue) (s : State) : Prop where
  wf : Memory.wf s = true
  ready : s.ready = true
  bit : bitTest v s = true

section
variable {v : AddressValue} {s : State}

theorem Registered.setInputs (h : Registered v s) (xs : List Input) : Registered v { s with inputs := xs } :=
  ⟨h.wf, h.ready, by simpa using h.bit⟩

/-- REGISTER registers, whether it is answered NEW or PRESENT (R85). -/
theorem registered_of_register (hwf : Memory.wf s = true) (hr : s.ready = true) (v : AddressValue) :
    ∃ t, exec (.register v) s = .next t ∧ Registered v t := by
  obtain ⟨t, he, ht⟩ := exec_marked (i := .register v) hwf hr (by simp [wellFormed, Instr.needsExtM]) (by simp)
  exact ⟨t, he, ht.wf, ht.ready, by simp [ht.bits, marks]⟩

/-- REGISTER of a registered address value is answered PRESENT and has no other effect (R85). -/
theorem Registered.exec_register (h : Registered v s) : exec (.register v) s = .next (respond .present 0 s) := by
  obtain ⟨hr, -⟩ | ⟨-, -, he⟩ | ⟨-, hb, -⟩ := execRegister_cases v s
  · simp [h.ready] at hr
  · exact he
  · simp [h.bit] at hb

/-- Any word but CONSTRUCT, refused or carried out, keeps an address value registered (R21). -/
theorem Registered.after_accept (h : Registered v s) {cw : CommandWord} (hc : decode s.extM cw ≠ .ok .construct) :
    ∃ t, accept cw s = .next t ∧ t.extM = s.extM ∧ t.inputs = s.inputs ∧ Registered v t := by
  cases hd : decode s.extM cw with
  | error e => exact ⟨_, accept_of_decode_error s hd, rfl, rfl, h.wf, h.ready, by simpa using h.bit⟩
  | ok i =>
    obtain ⟨t, he, ht⟩ := exec_marked h.wf h.ready (wellFormed_of_decode hd) (by rintro rfl; exact hc hd)
    obtain ⟨hext, hin, -⟩ := exec_samePort he
    exact ⟨t, (accept_of_decode_ok s hd).trans he, hext, hin, ht.wf, ht.ready, by simp [ht.bits, h.bit]⟩

end

/-! ### Runs over command words -/

theorem step_command {s : State} {cw : CommandWord} {rest : List Input} (hin : s.inputs = .command cw :: rest) :
    step s = accept cw { s with inputs := rest } := by
  simp only [step, takeInput, hin, handle]

/-- The canonical word of REGISTER runs REGISTER (R63, R72). -/
theorem accept_encode_register (v : AddressValue) (s : State) :
    accept (encode (.register v)) s = exec (.register v) s := by
  simpa [encode] using accept_register s (Laws.EncodeFields.register v).1

/-- A run over any words but CONSTRUCT keeps an address value registered. -/
theorem Registered.after_run (cws : List CommandWord) (rest : List Input) (k : Nat) {v : AddressValue} {s : State}
    (h : Registered v s) (hc : ∀ cw ∈ cws, decode s.extM cw ≠ .ok .construct)
    (hin : s.inputs = cws.map .command ++ rest) :
    ∃ t, Host.Core.run core (cws.length + k) s = Host.Core.run core k t ∧ t.inputs = rest ∧ Registered v t := by
  induction cws generalizing s with
  | nil => exact ⟨s, by simp, hin, h⟩
  | cons cw cws ih =>
    obtain ⟨hcw, hcws⟩ := List.forall_mem_cons.mp hc
    obtain ⟨u, hu, hext, huin, hreg⟩ := (h.setInputs (cws.map .command ++ rest)).after_accept hcw
    obtain ⟨t, ht, htin, htreg⟩ := ih hreg (by rwa [hext]) huin
    rw [List.length_cons, Nat.add_right_comm]
    exact ⟨t, (run_succ _ ((step_command hin).trans hu)).trans ht, htin, htreg⟩

/-! ### The statements -/

/-- Settles O12: `exec_notReady` for the commands refused, `exec_ne_notReady` for the others. -/
theorem commandsBeforeConstructAreNotReady : Obligations.CommandsBeforeConstructAreNotReady := by
  rw [Obligations.CommandsBeforeConstructAreNotReady, ← responseWord_notReady]
  refine ⟨fun s i hr hc hx => ?_, fun s t i h he => exec_ne_notReady h he⟩
  exact ⟨refuse .notReady s, exec_notReady hr hc hx, ⟨rfl, rfl, rfl, rfl⟩, ⟨rfl, rfl, rfl⟩, rfl⟩

/-- Settles O24: only the answer NEW writes, and what it writes is the BitSet of `v`. -/
theorem registerFrame : Obligations.RegisterFrame := by
  intro s t v hwf he
  have hport := exec_samePort he
  obtain ⟨-, hx⟩ | ⟨-, -, hx⟩ | ⟨-, -, hx⟩ := execRegister_cases v s
  · obtain rfl : refuse .notReady s = t := by simpa [exec, hx] using he
    exact ⟨fun _ _ _ => rfl, fun _ _ => rfl, rfl, fun _ _ => rfl, hport⟩
  · obtain rfl : respond .present 0 s = t := by simpa [exec, hx] using he
    exact ⟨by simp, by simp, rfl, by simp, hport⟩
  · obtain rfl : respond .new 0 (addToCount 1 (bitSet v s)) = t := by simpa [exec, hx] using he
    obtain ⟨-, hbits, hwords, -⟩ := bitSetChangesOneBit s v hwf
    refine ⟨fun k i hne => ?_, fun j hj => ?_, by simp, fun v' hne => ?_, hport⟩
    · simpa using hwords k i hne
    · simpa using getLsbD_wordOf_bitSet hwf v hj
    · simp [hbits, hne]

/-- Settles O23: the first REGISTER makes `v` registered, every word of the list keeps it so, and REGISTER of a
registered address value is answered PRESENT. -/
theorem registerTwiceCountsOnce : Obligations.RegisterTwiceCountsOnce := by
  rw [Obligations.RegisterTwiceCountsOnce, ← responseWord_present]
  refine ⟨fun s v hwf hr => ?again, fun s v between hwf hr hc hin => ?later⟩
  case again =>
    obtain ⟨t, he, ht⟩ := registered_of_register hwf hr v
    exact ⟨t, respond .present 0 t, he, ht.exec_register, ⟨rfl, rfl, rfl, rfl⟩, rfl⟩
  case later =>
    obtain ⟨t, he, ht⟩ := registered_of_register
      (s := { s with inputs := between.map .command ++ [.command (encode (.register v))] }) hwf hr v
    obtain ⟨hext, htin, -⟩ := exec_samePort he
    have hfirst : step s = .next t := (step_command hin).trans ((accept_encode_register v _).trans he)
    obtain ⟨u, hrun, huin, hu⟩ := ht.after_run between _ 1 (by rwa [hext]) htin
    have hlast : step u = .next (respond .present 0 { u with inputs := [] }) :=
      (step_command huin).trans ((accept_encode_register v _).trans (hu.setInputs []).exec_register)
    refine ⟨_, (run_succ _ hfirst).trans (hrun.trans (run_succ 0 hlast)), ?_⟩
    simp

end Sys2Proof.Machine
end

section
/-! SUPPORT. The other statements of spec/30_encoding.md: decoder and encoder undo each other, the decoder and the opcode
table agree, and the response word as a number (R61 to R68, R73). -/

namespace Sys2Proof

/-! ### What a word that decodes looks like -/

/-- Everything a word that decodes can be (R63, R65, R68). -/
theorem decode_ok_cases {extM : Bool} {cw : CommandWord} {i : Instr} (h : decode extM cw = .ok i) :
    (opField cw = 0x1 ∧ i = .construct) ∨ (opField cw = 0x2 ∧ i = .register (aField cw)) ∨
    (opField cw = 0x3 ∧ i = .count) ∨ (opField cw = 0x4 ∧ i = .rdword (aField cw)) ∨
    (opField cw = 0x5 ∧ i = .merge (aField cw) (dField cw)) := by
  simp only [decode] at h
  split_ifs at h <;> cases h <;> simp_all

/-- The decoder reads the canonical word of an instruction of the unit back (R65, R72). -/
theorem decode_encode {extM : Bool} {i : Instr} (h : wellFormed extM i = true) : decode extM (encode i) = .ok i := by
  cases i with
  | construct => exact decode_construct Laws.EncodeFields.construct.1
  | register v => simpa [encode] using decode_register (extM := extM) (Laws.EncodeFields.register v).1
  | count => exact decode_count Laws.EncodeFields.count.1
  | rdword a =>
    obtain rfl : extM = true := by simpa [wellFormed, Instr.needsExtM] using h
    simpa [encode] using decode_rdword (extM := true) (Laws.EncodeFields.rdword a).1
  | merge a d =>
    obtain rfl : extM = true := by simpa [wellFormed, Instr.needsExtM] using h
    simpa [encode] using decode_merge (extM := true) (Laws.EncodeFields.merge a d).1

/-! ### The opcode table -/

/-- The mask of every row of the table keeps the field `op` alone (R61, R63). -/
theorem and_opMask (cw : CommandWord) : cw &&& 0xF000000000000000000000000 = commandWord (opField cw) 0 0 := by
  have hmask : (0xF000000000000000000000000 : CommandWord) = BitVec.allOnes 100 <<< 96 := by decide
  refine BitVec.eq_of_getLsbD_eq fun i hi => ?_
  simp only [hmask, BitVec.getLsbD_and, BitVec.getLsbD_shiftLeft, BitVec.getLsbD_allOnes, commandWord, BitVec.getLsbD_cast,
    BitVec.getLsbD_append, opField, BitVec.getLsbD_extractLsb']
  by_cases hlow : i < 96
  · simp only [hlow, decide_true, Bool.not_true, Bool.and_false, Bool.false_and]
    grind
  · have hcw : 96 + (i - 64 - 32) = i := by omega
    simp only [hcw]
    grind

/-- Every row of the table masks `op`, and its bits outside `op` are 0. -/
theorem opcodeTable_rows : ∀ r ∈ opcodeTable,
    r.mask = 0xF000000000000000000000000 ∧ r.bits = commandWord (opField r.bits) 0 0 := by decide

/-- A row of the table selects the words with its opcode. -/
theorem selects_eq_opField {r : OpcodeRow} (hr : r ∈ opcodeTable) (cw : CommandWord) :
    r.selects cw = (opField cw == opField r.bits) := by
  obtain ⟨hmask, hbits⟩ := opcodeTable_rows r hr
  rw [OpcodeRow.selects, hmask, and_opMask, hbits, opField_commandWord, Bool.eq_iff_iff, beq_iff_eq, beq_iff_eq]
  exact ⟨fun h => by simpa using congrArg opField h, fun h => by rw [h]⟩

theorem filter_selects (cw : CommandWord) :
    (opcodeTable.filter fun r => r.selects cw) = opcodeTable.filter fun r => opField cw == opField r.bits :=
  List.filter_congr fun _ hr => selects_eq_opField hr cw

/-- No row has a reserved opcode, and the rows with opcode 0x4 or 0x5 are those of extension M (R63, R67). -/
theorem opcodeTable_opcodes : ∀ r ∈ opcodeTable,
    opField r.bits ≠ 0x0 ∧ ¬0x6 ≤ (opField r.bits).toNat ∧
      (opField r.bits = 0x4 ∨ opField r.bits = 0x5 → r.extension = true) := by decide

end Sys2Proof

namespace Sys2Proof.Machine

/-! ### The octets of REGISTER.IP -/

/-- Four octets make an address value (R112, R113). -/
theorem ipv4Value_lt {o0 o1 o2 o3 : Nat} (h0 : o0 < 256) (h1 : o1 < 256) (h2 : o2 < 256) (h3 : o3 < 256) :
    ipv4Value o0 o1 o2 o3 < 2 ^ 32 := by
  unfold ipv4Value
  omega

/-! ### The statements -/

/-- Settles O1, by `decode_encode`, which reads the operands of each opcode back. -/
theorem decodeOfEncodeIsIdentity : Obligations.DecodeOfEncodeIsIdentity := fun _ _ h => decode_encode h

/-- Settles O2: in each of the five cases of a word that decodes the operands are the fields of the word. -/
theorem encodeOfDecodeKeepsUsedFields : Obligations.EncodeOfDecodeKeepsUsedFields := by
  intro extM cw i h
  refine ⟨wellFormed_of_decode h, ?_⟩
  obtain ⟨hop, rfl⟩ | ⟨hop, rfl⟩ | ⟨hop, rfl⟩ | ⟨hop, rfl⟩ | ⟨hop, rfl⟩ := decode_ok_cases h <;>
    simp [encode, hop]

/-- Settles O3, by `decode_eq_error_iff`. -/
theorem decodeRefusesExactlyReservedOpcodes : Obligations.DecodeRefusesExactlyReservedOpcodes :=
  fun _ _ => decode_eq_error_iff

/-- Settles O5: a row selects by the opcode alone, and each opcode that decodes has one row. -/
theorem opcodeTableSelectsWhatDecodes : Obligations.OpcodeTableSelectsWhatDecodes := by
  refine fun extM cw => ⟨fun i h => ?decoded, fun e h r hr hsel => ?refused⟩
  case decoded =>
    rw [filter_selects]
    obtain ⟨hop, rfl⟩ | ⟨hop, rfl⟩ | ⟨hop, rfl⟩ | ⟨hop, rfl⟩ | ⟨hop, rfl⟩ := decode_ok_cases h <;>
      (rw [hop]; rfl)
  case refused =>
    obtain ⟨hzero, hhigh, hext⟩ := opcodeTable_opcodes r hr
    rw [selects_eq_opField hr, beq_iff_eq] at hsel
    obtain h0 | h6 | ⟨habsent, hop⟩ := decode_eq_error_iff.mp ⟨e, h⟩
    · exact absurd (hsel ▸ h0) hzero
    · exact absurd (hsel ▸ h6) hhigh
    · exact ⟨hext (hsel ▸ hop), habsent⟩

/-- Settles O6: seven closed words, evaluated. -/
theorem wordsOfTheSpecDecode : Obligations.WordsOfTheSpecDecode := by
  unfold Obligations.WordsOfTheSpecDecode
  decide

/-- Settles O7, by the number a response word is and its two fields. -/
theorem responseWordCarriesStatusAndData : Obligations.ResponseWordCarriesStatusAndData := fun st q =>
  ⟨toNat_responseWord st q, stField_responseWord st q, qField_responseWord st q⟩

/-- Settles O49: the value fits 32 bits, and its bytes are its base-256 digits. -/
theorem registerIpIsTheAddressFormula : Obligations.RegisterIpIsTheAddressFormula := by
  refine fun o0 o1 o2 o3 => ⟨fun h => ?_, fun h => by simp only [assembleLine, if_neg h]⟩
  have ⟨h0, h1, h2, h3⟩ := h
  have hv : (BitVec.ofNat 32 (ipv4Value o0 o1 o2 o3)).toNat = 256 ^ 3 * o0 + 256 ^ 2 * o1 + 256 * o2 + o3 := by
    rw [BitVec.toNat_ofNat, Nat.mod_eq_of_lt (ipv4Value_lt h0 h1 h2 h3), ipv4Value]
  refine ⟨_, by simp only [assembleLine, if_pos h], hv, ?_⟩
  simp only [BitVec.extractLsb'_toNat, Nat.shiftRight_eq_div_pow, hv]
  omega

end Sys2Proof.Machine
end

section
/-! SUPPORT. The statements about a step as a whole: responses, `READY`, reset, queries, and that no response depends on an
unspecified value (00_scope.md R8; 10_state.md R17, R24; 30_encoding.md R64; 60_exceptions.md R132, R135, R143;
70_reset_and_hazards.md R151, R152, R157). -/

namespace Sys2Proof.Machine

/-! ### Every command and every step goes on -/

theorem step_input {s : State} {x : Input} {rest : List Input} (hin : s.inputs = x :: rest) :
    step s = handle x { s with inputs := rest } := by
  simp only [step, takeInput, hin]

theorem step_of_no_input {s : State} (hin : s.inputs = []) : step s = .next s := by simp only [step, takeInput, hin]

theorem exec_next (i : Instr) (s : State) : ∃ t, exec i s = .next t := by
  obtain ⟨st, q, u, he, -⟩ := exec_ports i s
  exact ⟨_, he⟩

theorem handle_next (x : Input) (s : State) : ∃ t, handle x s = .next t := by
  obtain ⟨-, he⟩ | ⟨_, _, -, -, he⟩ | ⟨_, i, -, -, he⟩ := handle_cases x s
  · exact ⟨_, he⟩
  · exact ⟨_, he⟩
  · exact he ▸ exec_next i s

theorem step_next (s : State) : ∃ t, step s = .next t := by
  obtain ⟨-, he⟩ | ⟨x, rest, -, he⟩ := step_cases s
  · exact ⟨_, he⟩
  · exact he ▸ handle_next x _

theorem handle_of_isReset {x : Input} (h : isReset x = true) (s : State) : handle x s = .next (resetEvent s) := by
  cases x with
  | command cw => cases h
  | reset => rfl
  | resetDuring cw => rfl

/-- A command of extension M is refused ILLEGAL by a unit without it, and has no other effect (R68, R135). -/
theorem exec_illegal {s : State} {i : Instr} (hneeds : i.needsExtM = true) (hx : s.extM = false) :
    exec i s = .next (refuse .illegal s) := by
  obtain ⟨st, q, u, he, -, -, -, -, hill, -, hu, hq⟩ := exec_ports i s
  obtain rfl : st = .illegal := hill.mpr ⟨hneeds, hx⟩
  obtain rfl : u = s := hu (.inl rfl)
  obtain rfl : q = 0 := hq (by decide)
  exact he

theorem accept_encode_construct (s : State) : accept (encode .construct) s = .next (respond .done 0 (constructed s)) :=
  accept_construct s Laws.EncodeFields.construct.1

/-- The answer DONE of COUNT (R95). -/
theorem exec_count_of_ready {s : State} (hr : s.ready = true) :
    exec .count s = .next (respond .done (s.count.setWidth 64) s) := by
  obtain ⟨h, -⟩ | ⟨-, he⟩ := execCount_cases s
  · simp [hr] at h
  · exact he

/-- COUNT's data: 33 bits zero-extended (R95). -/
theorem toNat_zext (c : CountValue) : (c.setWidth 64).toNat = c.toNat := by
  have hlt := c.isLt
  rw [BitVec.toNat_setWidth, Nat.mod_eq_of_lt (by omega)]

/-- The answer DONE of RDWORD (R101). -/
theorem exec_rdword_of_ready {s : State} (hm : s.extM = true) (hr : s.ready = true) (a : AddressValue) :
    exec (.rdword a) s = .next (respond .done (wordOf a s) s) := by
  obtain ⟨h, -⟩ | ⟨-, h, -⟩ | ⟨-, -, he⟩ := execRdword_cases a s
  · simp [hm] at h
  · simp [hr] at h
  · exact he

/-- COUNT and RDWORD only respond, whatever they answer (R95, R101). -/
theorem exec_query {i : Instr} (h : i = .count ∨ ∃ a, i = .rdword a) (s : State) :
    ∃ st q, exec i s = .next (respond st q s) := by
  obtain rfl | ⟨a, rfl⟩ := h
  · obtain ⟨-, he⟩ | ⟨-, he⟩ := execCount_cases s <;> exact ⟨_, _, he⟩
  · obtain ⟨-, he⟩ | ⟨-, -, he⟩ | ⟨-, -, he⟩ := execRdword_cases a s <;> exact ⟨_, _, he⟩

/-- `READY` after a command: CONSTRUCT sets it and no other command writes it (R17). -/
theorem exec_ready {i : Instr} {s t : State} (he : exec i s = .next t) :
    t.ready = (decide (i = .construct) || s.ready) := by
  cases i with
  | construct =>
    obtain rfl : respond .done 0 (constructed s) = t := by simpa [exec, execConstruct] using he
    rfl
  | register v =>
    obtain ⟨-, hx⟩ | ⟨-, -, hx⟩ | ⟨-, -, hx⟩ := execRegister_cases v s <;>
      (cases hx.symm.trans he; simp)
  | count =>
    obtain ⟨st, q, hx⟩ := exec_query (.inl rfl) s
    cases hx.symm.trans he
    simp
  | rdword a =>
    obtain ⟨st, q, hx⟩ := exec_query (.inr ⟨a, rfl⟩) s
    cases hx.symm.trans he
    simp
  | merge a d =>
    obtain ⟨-, hx⟩ | ⟨-, -, hx⟩ | ⟨-, -, hx⟩ := execMerge_cases a d s <;>
      (cases hx.symm.trans he; simp)

/-! ### Two states the host cannot tell apart -/

/-- The state with another count of free values drawn, which no command looks at. -/
def setDraws (n : Nat) (s : State) : State := { s with draws := n }

section
variable (n : Nat) (s : State)

@[simp] theorem setDraws_ready : (setDraws n s).ready = s.ready := rfl
@[simp] theorem setDraws_extM : (setDraws n s).extM = s.extM := rfl
@[simp] theorem setDraws_count : (setDraws n s).count = s.count := rfl

@[simp] theorem plane_setDraws (k : PlaneSelect) : (setDraws n s).plane k = s.plane k := by cases k <;> rfl

@[simp] theorem wordOf_setDraws (v : AddressValue) : wordOf v (setDraws n s) = wordOf v s := by simp [wordOf, wordRead]

@[simp] theorem bitTest_setDraws (v : AddressValue) : bitTest v (setDraws n s) = bitTest v s := by simp [bitTest]

@[simp] theorem respond_setDraws (st : Status) (q : BitmapWord) :
    respond st q (setDraws n s) = setDraws n (respond st q s) := rfl

@[simp] theorem refuse_setDraws (st : Status) : refuse st (setDraws n s) = setDraws n (refuse st s) := rfl

@[simp] theorem addToCount_setDraws (k : Nat) : addToCount k (setDraws n s) = setDraws n (addToCount k s) := rfl

@[simp] theorem wordWrite_setDraws (k : PlaneSelect) (i : WordIndex) (w : BitmapWord) :
    wordWrite k i w (setDraws n s) = setDraws n (wordWrite k i w s) := by cases k <;> rfl

@[simp] theorem bitSet_setDraws (v : AddressValue) : bitSet v (setDraws n s) = setDraws n (bitSet v s) := by
  simp [bitSet]

end

/-- No command reads or writes the counter of the free values. -/
theorem exec_setDraws {i : Instr} {s t : State} (n : Nat) (he : exec i s = .next t) :
    exec i (setDraws n s) = .next (setDraws n t) := by
  cases i with
  | construct =>
    cases he
    rfl
  | register v =>
    obtain ⟨hr, hx⟩ | ⟨hr, hb, hx⟩ | ⟨hr, hb, hx⟩ := execRegister_cases v s <;> cases hx.symm.trans he
    · simp [exec, execRegister, hr]
    · simp [exec, execRegister, hr, hb]
    · simp [exec, execRegister, hr, hb]
  | count =>
    obtain ⟨hr, hx⟩ | ⟨hr, hx⟩ := execCount_cases s <;> cases hx.symm.trans he <;> simp [exec, execCount, hr]
  | rdword a =>
    obtain ⟨hm, hx⟩ | ⟨hm, hr, hx⟩ | ⟨hm, hr, hx⟩ := execRdword_cases a s <;> cases hx.symm.trans he
    · simp [exec, execRdword, hm]
    · simp [exec, execRdword, hm, hr]
    · simp [exec, execRdword, hm, hr]
  | merge a d =>
    obtain ⟨hm, hx⟩ | ⟨hm, hr, hx⟩ | ⟨hm, hr, hx⟩ := execMerge_cases a d s <;> cases hx.symm.trans he
    · simp [exec, execMerge, hm]
    · simp [exec, execMerge, hm, hr]
    · simp [exec, execMerge, hm, hr]

/-- A constructed unit shows all of its state but the counter of the free values. -/
theorem sameVisible.eq_setDraws {s s' : State} (h : sameVisible s s') (hr : s.ready = true) :
    s' = setDraws s'.draws s := by
  obtain ⟨hready, hext, hin, hrsps, hcontents⟩ := h
  obtain ⟨hlo, hhi, hcount⟩ := hcontents hr
  cases s
  cases s'
  simp_all [setDraws]

theorem sameVisible_setDraws (n : Nat) (s : State) : sameVisible s (setDraws n s) :=
  ⟨rfl, rfl, rfl, rfl, fun _ => ⟨rfl, rfl, rfl⟩⟩

theorem sameVisible.refuse {s s' : State} (h : sameVisible s s') (st : Status) :
    sameVisible (refuse st s) (refuse st s') := by
  obtain ⟨hready, hext, hin, hrsps, hcontents⟩ := h
  exact ⟨hready, hext, hin, congrArg (· ++ [responseWord st 0]) hrsps, hcontents⟩

/-- CONSTRUCT makes equal all that was unspecified (R25). -/
theorem sameVisible.construct {s s' : State} (h : sameVisible s s') :
    sameVisible (respond .done 0 (constructed s)) (respond .done 0 (constructed s')) := by
  obtain ⟨-, hext, hin, hrsps, -⟩ := h
  exact ⟨rfl, hext, hin, congrArg (· ++ [responseWord .done 0]) hrsps, fun _ => ⟨rfl, rfl, rfl⟩⟩

/-- A command of the unit keeps two states indistinguishable: a unit not constructed refuses all but CONSTRUCT, and a
constructed one differs only in the counter of the free values (R24, R132). -/
theorem sameVisible.exec {s s' : State} (h : sameVisible s s') {i : Instr} (hx : wellFormed s.extM i = true) :
    ∃ t t', exec i s = .next t ∧ exec i s' = .next t' ∧ sameVisible t t' := by
  cases hr : s.ready with
  | true =>
    obtain ⟨t, he⟩ := exec_next i s
    rw [h.eq_setDraws hr]
    exact ⟨t, _, he, exec_setDraws _ he, sameVisible_setDraws _ t⟩
  | false =>
    by_cases hc : i = .construct
    · subst hc
      exact ⟨_, _, rfl, rfl, h.construct⟩
    · obtain ⟨hready, hext, -⟩ := id h
      exact ⟨_, _, exec_notReady hr hc hx, exec_notReady (hready.trans hr) hc (hext ▸ hx), h.refuse .notReady⟩

theorem sameVisible.handle {s s' : State} (h : sameVisible s s') (x : Input) :
    ∃ t t', handle x s = .next t ∧ handle x s' = .next t' ∧ sameVisible t t' := by
  obtain ⟨hready, hext, hin, hrsps, hcontents⟩ := id h
  have hreset : sameVisible (resetEvent s) (resetEvent s') := ⟨rfl, hext, hin, hrsps, by simp⟩
  cases x with
  | reset => exact ⟨_, _, rfl, rfl, hreset⟩
  | resetDuring cw => exact ⟨_, _, rfl, rfl, hreset⟩
  | command cw =>
    cases hd : decode s.extM cw with
    | error e => exact ⟨_, _, accept_of_decode_error s hd, accept_of_decode_error s' (hext ▸ hd), h.refuse .illegal⟩
    | ok i =>
      obtain ⟨t, t', ht, ht', hvis⟩ := h.exec (wellFormed_of_decode hd)
      exact ⟨t, t', (accept_of_decode_ok s hd).trans ht, (accept_of_decode_ok s' (hext ▸ hd)).trans ht', hvis⟩

/-- The step lemma of O19. -/
theorem sameVisible.step {s s' : State} (h : sameVisible s s') :
    ∃ t t', Machine.step s = .next t ∧ Machine.step s' = .next t' ∧ sameVisible t t' := by
  obtain ⟨hready, hext, hin, hrsps, hcontents⟩ := id h
  obtain ⟨hnil, he⟩ | ⟨x, rest, hcons, he⟩ := step_cases s
  · exact ⟨s, s', he, step_of_no_input (hin.trans hnil), h⟩
  · rw [he, step_input (hin.trans hcons)]
    exact sameVisible.handle (s := { s with inputs := rest }) (s' := { s' with inputs := rest })
      ⟨hready, hext, rfl, hrsps, hcontents⟩ x

/-! ### The statements -/

/-- Settles O19, by induction on the number of steps; a step is `sameVisible.step`. -/
theorem responsesDoNotDependOnUnspecifiedContents : Obligations.ResponsesDoNotDependOnUnspecifiedContents := by
  intro n
  induction n with
  | zero => exact fun s s' h => ⟨s, s', rfl, rfl, h⟩
  | succ n ih =>
    intro s s' h
    obtain ⟨u, u', hu, hu', hvis⟩ := h.step
    rw [run_succ n hu, run_succ n hu']
    exact ih u u' hvis

/-- Settles O15: reset leaves the record, a refused word is answered ILLEGAL 0, and a command responds as `exec_ports`
says. -/
theorem oneResponsePerCommand : Obligations.OneResponsePerCommand := by
  intro s t x rest hin hstep
  rw [step_input hin] at hstep
  obtain ⟨hx, he⟩ | ⟨cw, e, rfl, -, he⟩ | ⟨cw, i, rfl, -, he⟩ := handle_cases x { s with inputs := rest }
  · have hreset : isReset x = true := by obtain rfl | ⟨cw, rfl⟩ := hx <;> rfl
    cases he.symm.trans hstep
    exact ⟨rfl, rfl, fun _ => rfl, by simp [hreset]⟩
  · cases he.symm.trans hstep
    exact ⟨rfl, rfl, by simp [isReset], fun _ => ⟨_, .illegal, rfl, by simp, by simp⟩⟩
  · obtain ⟨st, q, u, hu, hrsps, hext, huin, -, -, -, -, hq⟩ := exec_ports i { s with inputs := rest }
    cases hu.symm.trans (he.symm.trans hstep)
    refine ⟨huin, hext, by simp [isReset], fun _ => ⟨responseWord st q, st, ?_, by simp, by simpa using hq⟩⟩
    rw [respond_rsps, hrsps]

/-- Settles O16: reset clears `READY`, a refused word leaves it, and a command leaves it as `exec_ready` says. -/
theorem onlyConstructAndResetWriteReady : Obligations.OnlyConstructAndResetWriteReady := by
  intro s t x rest hin hstep
  rw [step_input hin] at hstep
  obtain ⟨hx, he⟩ | ⟨cw, e, rfl, hd, he⟩ | ⟨cw, i, rfl, hd, he⟩ := handle_cases x { s with inputs := rest }
  · cases he.symm.trans hstep
    obtain rfl | ⟨cw, rfl⟩ := hx <;> simp [isConstruct, isReset]
  · cases he.symm.trans hstep
    simp [isConstruct, isReset, show decode s.extM cw = .error e from hd]
  · rw [exec_ready (he.symm.trans hstep)]
    simp [isConstruct, isReset, show decode s.extM cw = .ok i from hd]

/-- Settles O8, by the equations of a step on a command word. -/
theorem stepRunsTheDecodedCommand : Obligations.StepRunsTheDecodedCommand := by
  refine ⟨fun s cw rest i hin hd => ?_, fun s nbits w cw i hw hd => ?_⟩
  · exact (step_command hin).trans (accept_of_decode_ok _ hd)
  · rw [State.withFetchWord, hw]
    exact (step_present cw s).trans (accept_of_decode_ok s hd)

/-- Settles O9, by `exec_next` and `step_next`. -/
theorem everyStepAnswersANextState : Obligations.EveryStepAnswersANextState := ⟨exec_next, step_next⟩

/-- Settles O10: with no input the step is the waiting one. -/
theorem waitingUnitHoldsItsState : Obligations.WaitingUnitHoldsItsState := fun _ hin => step_of_no_input hin

/-- Settles O13, by `exec_illegal`. -/
theorem extensionCommandsNeedTheExtension : Obligations.ExtensionCommandsNeedTheExtension := by
  intro s a d hx
  rw [exec_illegal rfl hx, exec_illegal rfl hx, ← responseWord_illegal]
  exact ⟨⟨_, rfl, ⟨rfl, rfl, rfl, rfl⟩, ⟨rfl, rfl, rfl⟩, rfl⟩, ⟨_, rfl, ⟨rfl, rfl, rfl, rfl⟩, ⟨rfl, rfl, rfl⟩, rfl⟩⟩

/-- Settles O14: the unit is ready after CONSTRUCT, so only the extension decides the answer to RDWORD. -/
theorem hostDiscoversTheExtension : Obligations.HostDiscoversTheExtension := by
  intro s a d
  simp only [step_present, accept_encode_construct, accept_rdword _ (opField_commandWord 0x4 a d)]
  cases hx : s.extM with
  | true => exact ⟨_, _, rfl, exec_rdword_of_ready (s := respond .done 0 (constructed s)) hx rfl _, by simp [Status.code]⟩
  | false => exact ⟨_, _, rfl, exec_illegal rfl hx, by simp [Status.code]⟩

/-- Settles O17: the next state is `resetEvent`, whose planes list no word. -/
theorem resetLeavesTheContentsUnspecified : Obligations.ResetLeavesTheContentsUnspecified := by
  intro s rest x hx hin
  exact ⟨_, (step_input hin).trans (handle_of_isReset hx _), rfl, rfl, rfl, rfl, fun _ => rfl, fun _ => rfl, rfl, rfl⟩

/-- Settles O18: the planes of `State.resetFor` list no word. -/
theorem powerOnState : Obligations.PowerOnState :=
  fun _ => ⟨rfl, rfl, fun _ => rfl, fun _ => rfl, rfl, rfl, rfl⟩

/-- Settles O25: the 33 bits of `COUNT` are zero-extended. -/
theorem countAnswersTheRunningCount : Obligations.CountAnswersTheRunningCount := by
  intro s hr
  refine ⟨_, _, exec_count_of_ready hr, ⟨rfl, rfl, rfl, rfl⟩, ⟨rfl, rfl, rfl⟩, rfl, by simp [Status.code],
    by rw [qField_responseWord, toNat_zext], ?_⟩
  apply BitVec.eq_of_toNat_eq
  rw [qField_responseWord, BitVec.toNat_ushiftRight, toNat_zext, Nat.shiftRight_eq_div_pow, Nat.div_eq_of_lt s.count.isLt]
  rfl

/-- Settles O27, by `exec_query`. -/
theorem countAndRdwordWriteNothing : Obligations.CountAndRdwordWriteNothing := by
  intro s t i hi he
  obtain ⟨st, q, hx⟩ := exec_query hi s
  cases hx.symm.trans he
  exact ⟨⟨rfl, rfl, rfl, rfl⟩, ⟨rfl, rfl, rfl⟩, by simp⟩

/-- Settles O34: the position is a remainder by 2^31, its quotient and remainder by 64 follow. -/
theorem converterIsAlwaysInBounds : Obligations.ConverterIsAlwaysInBounds := by
  intro v
  simp only [widxByValue, offByValue, posByValue_eq_mod, Config.wordBits]
  omega

/-- Settles O38, by the uniqueness of the canonical form. -/
theorem equalPlanesAreEqualData : Obligations.EqualPlanesAreEqualData :=
  fun _ _ hp hq hb hread => Plane.eq_of_read_eq hp hq hb hread

/-- Settles O48: the moved unit runs its own step, and `List.set` leaves every other place. -/
theorem unitsShareNoState : Obligations.UnitsShareNoState := by
  intro k units hk
  obtain ⟨t, ht⟩ := step_next units[k]
  have hget : units[k]? = some units[k] := List.getElem?_eq_getElem hk
  refine ⟨units.set k t, by simp only [stepUnit, hget, ht], List.length_set, fun j hj => ?_, fun s hs => ?_⟩
  · exact List.getElem?_set_ne (Ne.symm hj)
  · obtain rfl : units[k] = s := Option.some.inj (hget.symm.trans hs)
    exact ⟨t, ht, List.getElem?_set_self hk⟩

end Sys2Proof.Machine
end

section
/-! SUPPORT. What MERGE and REGISTER write, said once as one operation: a word ORed with `d` and the newly set bits added to
`COUNT`. Its effect on words and bits, the statements about MERGE, REGISTER and RDWORD of one unit, and that these writes
commute (20_memory.md R47, R48; 41_register.md R85, R90; 43_merge_extension.md R101 to R104). -/

namespace Sys2Proof.Machine

/-! ### The population count of a word -/

theorem popcount64_eq_card (w : BitmapWord) :
    popcount64 w = ((Finset.range 64).filter fun i => w.getLsbD i = true).card := by
  rw [← Nat.count_eq_card_filter_range, Nat.count, popcount64]
  simp

/-- ORing `d` in adds the bits of `d` that were 0 (R103). -/
theorem popcount64_or (w d : BitmapWord) : popcount64 (w ||| d) = popcount64 w + popcount64 (d &&& ~~~w) := by
  simp only [popcount64_eq_card]
  rw [← Finset.card_union_of_disjoint]
  · congr 1
    ext i
    simp only [Finset.mem_filter, Finset.mem_union, Finset.mem_range, BitVec.getLsbD_or, BitVec.getLsbD_and,
      BitVec.getLsbD_not]
    grind
  · rw [Finset.disjoint_filter]
    simp +contextual

theorem toNat_ofNat_popcount64 (w : BitmapWord) : (BitVec.ofNat 64 (popcount64 w)).toNat = popcount64 w := by
  have hle := popcount64_le w
  rw [BitVec.toNat_ofNat, Nat.mod_eq_of_lt (by omega)]

/-- The mask of one bit adds that bit, if it was 0 (R87). -/
theorem popcount64_maskOf_and_not (k : BitOffset) (w : BitmapWord) :
    popcount64 (maskOf k &&& ~~~w) = if w.getLsbD k.toNat then 0 else 1 := by
  have hk := k.isLt
  rw [popcount64_eq_card]
  split_ifs with hw
  · rw [Finset.card_eq_zero, Finset.filter_eq_empty_iff]
    intro i hi
    simp only [BitVec.getLsbD_and, BitVec.getLsbD_not, getLsbD_maskOf]
    grind
  · rw [Finset.card_eq_one]
    refine ⟨k.toNat, ?_⟩
    ext i
    simp only [Finset.mem_filter, Finset.mem_range, Finset.mem_singleton, BitVec.getLsbD_and, BitVec.getLsbD_not,
      getLsbD_maskOf]
    grind

/-! ### The one write of MERGE and REGISTER -/

/-- The word of `a` ORed with `d`, and `COUNT` up by the bits this turns from 0 to 1 (R102, R103). -/
def orWord (a : AddressValue) (d : BitmapWord) (s : State) : State :=
  addToCount (popcount64 (d &&& ~~~wordOf a s)) (wordWrite (planeOf a) (widxOf a) (wordOf a s ||| d) s)

theorem exec_merge_of_ready {s : State} (hm : s.extM = true) (hr : s.ready = true) (a : AddressValue) (d : BitmapWord) :
    exec (.merge a d) s =
      .next (respond .done (BitVec.ofNat 64 (popcount64 (d &&& ~~~wordOf a s))) (orWord a d s)) := by
  obtain ⟨h, -⟩ | ⟨-, h, -⟩ | ⟨-, -, he⟩ := execMerge_cases a d s
  · simp [hm] at h
  · simp [hr] at h
  · exact he

theorem popcount64_registerMask (v : AddressValue) (s : State) :
    popcount64 (maskOf (offOf v) &&& ~~~wordOf v s) = if bitTest v s then 0 else 1 := popcount64_maskOf_and_not _ _

/-- REGISTER writes as a MERGE of the mask of its bit; PRESENT is the case in which that changes nothing (R85, R87). -/
theorem exec_register_of_ready {s : State} (hwf : Memory.wf s = true) (hr : s.ready = true) (v : AddressValue) :
    exec (.register v) s =
      .next (respond (if bitTest v s then .present else .new) 0 (orWord v (maskOf (offOf v)) s)) := by
  obtain ⟨h, -⟩ | ⟨-, hb, he⟩ | ⟨-, hb, he⟩ := execRegister_cases v s
  · simp [hr] at h
  · have hsame : orWord v (maskOf (offOf v)) s = s := by
      obtain ⟨-, -, -, hset⟩ := bitSetChangesOneBit s v hwf
      rw [orWord, ← bitSet, hset hb, popcount64_registerMask, if_pos hb]
      simp [addToCount]
    rw [hsame, hb]
    exact he
  · rw [orWord, popcount64_registerMask, hb]
    exact he

section
variable (a : AddressValue) (d : BitmapWord) (s : State)

@[simp] theorem orWord_count : (orWord a d s).count = s.count + BitVec.ofNat 33 (popcount64 (d &&& ~~~wordOf a s)) := by
  simp [orWord]
@[simp] theorem orWord_ready : (orWord a d s).ready = s.ready := by simp [orWord]
@[simp] theorem orWord_extM : (orWord a d s).extM = s.extM := by simp [orWord]
@[simp] theorem orWord_inputs : (orWord a d s).inputs = s.inputs := by simp [orWord]
@[simp] theorem orWord_rsps : (orWord a d s).rsps = s.rsps := by simp [orWord]

theorem respond_orWord_rsps (st : Status) (q : BitmapWord) :
    (respond st q (orWord a d s)).rsps = s.rsps ++ [responseWord st q] := by simp

theorem plane_orWord_background (k : PlaneSelect) : ((orWord a d s).plane k).background = (s.plane k).background := by
  rw [orWord, plane_addToCount, plane_wordWrite]
  split_ifs <;> simp

end

section
variable {s : State} (h : Memory.wf s = true)
include h

theorem wf_orWord (a : AddressValue) (d : BitmapWord) : Memory.wf (orWord a d s) = true := wf_wordWrite h _ _ _

theorem wordRead_orWord (a : AddressValue) (d : BitmapWord) (k : PlaneSelect) (i : WordIndex) :
    wordRead k i (orWord a d s) = if k = planeOf a ∧ i = widxOf a then wordRead k i s ||| d else wordRead k i s := by
  rw [orWord, wordRead_addToCount, wordRead_wordWrite h]
  split_ifs with hword
  · obtain ⟨rfl, rfl⟩ := hword
    rfl
  · rfl

theorem wordOf_orWord (a v : AddressValue) (d : BitmapWord) :
    wordOf v (orWord a d s) = if globalOf v = globalOf a then wordOf v s ||| d else wordOf v s := by
  rw [wordOf, wordRead_orWord h]
  exact if_congr globalOf_eq_iff.symm rfl rfl

/-- The bits after the write: those of `d` in its word, and those before (R102, R104). -/
theorem bitTest_orWord (a v : AddressValue) (d : BitmapWord) :
    bitTest v (orWord a d s) = (bitTest v s || decide (v.toNat ∈ mergeSet a d)) := by
  rw [orWord, bitTest_addToCount, bitTest_mergeWrite h]

end

theorem wordOf_congr {a a' : AddressValue} (h : globalOf a = globalOf a') (s : State) : wordOf a s = wordOf a' s := by
  obtain ⟨hplane, hwidx⟩ := globalOf_eq_iff.mp h
  simp only [wordOf, hplane, hwidx]

/-- The write uses only a[31:6] (R102). -/
theorem orWord_congr {a a' : AddressValue} (h : globalOf a = globalOf a') (d : BitmapWord) : orWord a d = orWord a' d := by
  obtain ⟨hplane, hwidx⟩ := globalOf_eq_iff.mp h
  funext s
  simp only [orWord, wordOf, hplane, hwidx]

end Sys2Proof.Machine
end

section
/-! SUPPORT. The statements about REGISTER, RDWORD and MERGE on a constructed unit, each by the effect of `orWord`
(41_register.md R85, R90; 43_merge_extension.md R101 to R104). -/

namespace Sys2Proof.Machine

/-! ### Membership -/

theorem mem_members {s : State} {p : Nat} : p ∈ members s ↔ p < 2 ^ 32 ∧ bitTest (BitVec.ofNat 32 p) s = true := by
  simp [members, Config.totalBits]

@[simp] theorem toNat_mem_members {s : State} (v : AddressValue) : v.toNat ∈ members s ↔ bitTest v s = true := by
  rw [mem_members, BitVec.ofNat_toNat, BitVec.setWidth_eq]
  exact and_iff_right v.isLt

/-- The address value of bit i of the word of a (R101). -/
theorem toNat_bitAddress (a : AddressValue) {i : Nat} (hi : i < 64) :
    (BitVec.ofNat 32 ((globalOf a).toNat * 64 + i)).toNat = (globalOf a).toNat * 64 + i := by
  have hlt := (globalOf a).isLt
  rw [BitVec.toNat_ofNat, Nat.mod_eq_of_lt (by omega)]

theorem globalOf_bitAddress (a : AddressValue) {i : Nat} (hi : i < 64) :
    globalOf (BitVec.ofNat 32 ((globalOf a).toNat * 64 + i)) = globalOf a := by
  apply BitVec.eq_of_toNat_eq
  rw [toNat_globalOf, toNat_bitAddress a hi]
  omega

theorem toNat_offOf_bitAddress (a : AddressValue) {i : Nat} (hi : i < 64) :
    (offOf (BitVec.ofNat 32 ((globalOf a).toNat * 64 + i))).toNat = i := by
  rw [toNat_offOf, toNat_bitAddress a hi]
  omega

/-- The bits of a word are the memberships of its 64 address values (R101). -/
theorem getLsbD_wordOf_iff {s : State} (a : AddressValue) {i : Nat} (hi : i < 64) :
    (wordOf a s).getLsbD i = true ↔ (globalOf a).toNat * 64 + i ∈ members s := by
  rw [← toNat_bitAddress a hi, toNat_mem_members, bitTest, wordOf_congr (globalOf_bitAddress a hi),
    toNat_offOf_bitAddress a hi]

/-! ### Units that hold the same words -/

/-- A word outside the plane is never listed. -/
theorem read_of_le {p : Plane} (h : p.wf = true) {i : Nat} (hi : Config.planeWords ≤ i) :
    p.read i = p.background.word i := by
  simp only [Plane.wf, Bool.and_eq_true, List.all_eq_true, decide_eq_true_eq] at h
  cases hl : lookupCell i p.words with
  | none => simp [Plane.read, hl]
  | some w =>
    have hlt : i < Config.planeWords := (h.2 _ (mem_of_lookupCell hl)).1
    omega

/-- Units with the same words over the same backgrounds, the same `COUNT` and `READY` are the same unit (log 6). -/
theorem sameUnit_of_wordRead_eq {s t : State} (hs : Memory.wf s = true) (ht : Memory.wf t = true)
    (hb : ∀ k, (t.plane k).background = (s.plane k).background) (hw : ∀ k i, wordRead k i t = wordRead k i s)
    (hcount : t.count = s.count) (hready : t.ready = s.ready) : sameUnit s t := by
  have hplane : ∀ k, t.plane k = s.plane k := fun k => by
    refine Plane.eq_of_read_eq (wf_plane ht k) (wf_plane hs k) (hb k) fun i => ?_
    rcases lt_or_ge i Config.planeWords with hi | hi
    · have hidx : (BitVec.ofNat 25 i).toNat = i := (BitVec.toNat_ofNat i 25).trans (Nat.mod_eq_of_lt hi)
      simpa only [wordRead, hidx] using hw k (BitVec.ofNat 25 i)
    · rw [read_of_le (wf_plane ht k) hi, read_of_le (wf_plane hs k) hi, hb]
  exact ⟨hplane .low, hplane .high, hcount, hready⟩

/-! ### The writes commute and repeats do nothing -/

section
variable {s : State} (h : Memory.wf s = true)
include h

/-- Two writes add to `COUNT` the same in either order: into one word the growth of its population count, into two words
each its own (R90, R104). -/
theorem orWord_orWord_count (a a' : AddressValue) (d d' : BitmapWord) :
    (orWord a' d' (orWord a d s)).count = (orWord a d (orWord a' d' s)).count := by
  simp only [orWord_count, wordOf_orWord h, BitVec.add_assoc, ← BitVec.ofNat_add]
  by_cases hg : globalOf a = globalOf a'
  · have hword := wordOf_congr hg s
    have hd := popcount64_or (wordOf a s) d
    have hd' := popcount64_or (wordOf a s) d'
    have hdd' := popcount64_or (wordOf a s ||| d) d'
    have hd'd := popcount64_or (wordOf a s ||| d') d
    rw [show wordOf a s ||| d' ||| d = wordOf a s ||| d ||| d' by ac_rfl] at hd'd
    simp only [hg, if_true, ← hword]
    congr 2
    omega
  · simp only [hg, Ne.symm hg, if_false]
    rw [Nat.add_comm]

theorem orWord_comm (a a' : AddressValue) (d d' : BitmapWord) :
    sameUnit (orWord a' d' (orWord a d s)) (orWord a d (orWord a' d' s)) := by
  have had := wf_orWord h a d
  have had' := wf_orWord h a' d'
  refine sameUnit_of_wordRead_eq (wf_orWord had a' d') (wf_orWord had' a d) (fun k => ?_) (fun k i => ?_)
    (orWord_orWord_count h a' a d' d) (by simp)
  · simp only [plane_orWord_background]
  · simp only [wordRead_orWord had, wordRead_orWord had', wordRead_orWord h]
    split_ifs <;> ac_rfl

theorem orWord_idem (a : AddressValue) (d : BitmapWord) : sameUnit (orWord a d s) (orWord a d (orWord a d s)) := by
  have had := wf_orWord h a d
  have hnone : d &&& ~~~(wordOf a s ||| d) = 0 := by
    refine BitVec.eq_of_getLsbD_eq fun i _ => ?_
    simp
    grind
  refine sameUnit_of_wordRead_eq had (wf_orWord had a d) (fun k => ?_) (fun k i => ?_) ?_ (by simp)
  · simp only [plane_orWord_background]
  · simp only [wordRead_orWord had, wordRead_orWord h]
    split_ifs <;> simp [BitVec.or_assoc]
  · simp [wordOf_orWord h, hnone]

end

theorem wordWrite_respond (k : PlaneSelect) (i : WordIndex) (w : BitmapWord) (st : Status) (q : BitmapWord) (s : State) :
    wordWrite k i w (respond st q s) = respond st q (wordWrite k i w s) := by cases k <;> rfl

@[simp] theorem orWord_respond (a : AddressValue) (d : BitmapWord) (st : Status) (q : BitmapWord) (s : State) :
    orWord a d (respond st q s) = respond st q (orWord a d s) := by
  simp only [orWord, wordOf_respond, wordWrite_respond]
  rfl

/-- On a constructed unit a REGISTER or MERGE responds after one `orWord`, the same in every state. -/
theorem exec_marking {extM : Bool} {i : Instr} (hi : (∃ v, i = .register v) ∨ ∃ a d, i = .merge a d)
    (hx : wellFormed extM i = true) : ∃ a d, ∀ s : State, Memory.wf s = true → s.ready = true → s.extM = extM →
      ∃ st q, exec i s = .next (respond st q (orWord a d s)) := by
  obtain ⟨v, rfl⟩ | ⟨a, d, rfl⟩ := hi
  · exact ⟨v, _, fun s hwf hr _ => ⟨_, _, exec_register_of_ready hwf hr v⟩⟩
  · obtain rfl : extM = true := by simpa [wellFormed, Instr.needsExtM] using hx
    exact ⟨a, d, fun s _ hr hm => ⟨_, _, exec_merge_of_ready hm hr a d⟩⟩

theorem responseWord_new : responseWord .new 0 = 0x10000000000000000 := by decide

/-! ### The statements -/

/-- Settles O22: this is the answer PRESENT of `execRegister_cases`. -/
theorem registerPresentChangesNothing : Obligations.RegisterPresentChangesNothing := by
  rw [Obligations.RegisterPresentChangesNothing, ← responseWord_present]
  intro s v hr hb
  obtain ⟨h, -⟩ | ⟨-, -, he⟩ | ⟨-, h, -⟩ := execRegister_cases v s
  · simp [hr] at h
  · exact ⟨_, he, ⟨rfl, rfl, rfl, rfl⟩, ⟨rfl, rfl, rfl⟩, rfl⟩
  · simp [hb] at h

/-- Settles O21: this is the answer NEW of `execRegister_cases`; the frame is that of REGISTER. -/
theorem registerNewSetsTheBitAndCounts : Obligations.RegisterNewSetsTheBitAndCounts := by
  rw [Obligations.RegisterNewSetsTheBitAndCounts, ← responseWord_new]
  intro s v hwf hr hb
  obtain ⟨h, -⟩ | ⟨-, h, -⟩ | ⟨-, -, he⟩ := execRegister_cases v s
  · simp [hr] at h
  · simp [hb] at h
  · obtain ⟨hwords, -, hready, hbits, hport⟩ := registerFrame s _ v hwf he
    exact ⟨_, he, by simp [bitTest_bitSet hwf], by simp, hbits, hwords, hready, hport, by simp⟩

/-- Settles O26, by `exec_rdword_of_ready` and the membership of a word's bits. -/
theorem rdwordAnswersTheWord : Obligations.RdwordAnswersTheWord := by
  intro s a hm hr
  refine ⟨_, _, exec_rdword_of_ready hm hr a, ⟨rfl, rfl, rfl, rfl⟩, ⟨rfl, rfl, rfl⟩, rfl, by simp [Status.code],
    by simp [wordOf], fun i hi => ?_⟩
  rw [qField_responseWord, getLsbD_wordOf_iff a hi]

/-- Settles O30: a refusal changes nothing, and DONE writes by `orWord`. -/
theorem mergeFrame : Obligations.MergeFrame := by
  intro s t a d hwf he
  have hport := exec_samePort he
  obtain ⟨-, hx⟩ | ⟨-, -, hx⟩ | ⟨hm, hr, -⟩ := execMerge_cases a d s
  · obtain rfl : refuse .illegal s = t := by simpa [exec, hx] using he
    exact ⟨fun _ _ _ => rfl, fun _ _ => rfl, rfl, hport⟩
  · obtain rfl : refuse .notReady s = t := by simpa [exec, hx] using he
    exact ⟨fun _ _ _ => rfl, fun _ _ => rfl, rfl, hport⟩
  · cases (exec_merge_of_ready hm hr a d).symm.trans he
    refine ⟨fun k i hne => ?_, fun v hne => ?_, by simp, hport⟩
    · rw [wordRead_respond, wordRead_orWord hwf, if_neg hne]
    · rw [bitTest_respond, bitTest, wordOf, wordRead_orWord hwf, if_neg hne]
      rfl

/-- Settles O28, by the effect of `orWord` and the frame of MERGE. -/
theorem mergeOrsTheWordAndCounts : Obligations.MergeOrsTheWordAndCounts := by
  intro s a d hwf hm hr
  have he := exec_merge_of_ready hm hr a d
  obtain ⟨hwords, -, hready, hport⟩ := mergeFrame s _ a d hwf he
  refine ⟨_, _, he, by simp [wordOf_orWord hwf], hwords, by simp, hready, hport, respond_orWord_rsps a d s _ _,
    by simp [Status.code], ?_⟩
  rw [qField_responseWord, toNat_ofNat_popcount64]
  exact ⟨rfl, popcount64_le _⟩

/-- Settles O29: the growth of the word's population count is `popcount64_or`. -/
theorem mergeAddsTheGrowthOfTheWord : Obligations.MergeAddsTheGrowthOfTheWord := by
  intro s a d hwf hm hr
  obtain ⟨t, rw, he, hword, -, hcount, -, -, hrsps, -, hq, -⟩ := mergeOrsTheWordAndCounts s a d hwf hm hr
  refine ⟨t, rw, he, hrsps, ?count, ?growth, popcount64_le _, ?bits⟩
  case count => rw [hcount, hword, popcount64_or, BitVec.add_assoc, ← BitVec.ofNat_add, Nat.add_comm]
  case growth => rw [hq, hword, popcount64_or, Nat.add_comm]
  case bits =>
    rw [hq, hword, popcount64_eq_card]
    congr 1
    refine Finset.filter_congr fun i hi => ?_
    have hlt : i < 64 := Finset.mem_range.mp hi
    simp only [BitVec.getLsbD_or, BitVec.getLsbD_and, BitVec.getLsbD_not, hlt]
    grind

/-- Settles O31: REGISTER writes by `orWord` of the mask of its bit, and here that bit lies in the word of `a`. -/
theorem mergeOfOneBitActsAsRegister : Obligations.MergeOfOneBitActsAsRegister := by
  intro s a k hwf hm hr
  have hoff : offOf (BitVec.ofNat 32 ((globalOf a).toNat * 64 + k.toNat)) = k :=
    BitVec.eq_of_toNat_eq (toNat_offOf_bitAddress a k.isLt)
  refine ⟨_, _, exec_merge_of_ready hm hr a _, exec_register_of_ready hwf hr _, ?_⟩
  rw [hoff, orWord_congr (globalOf_bitAddress a k.isLt)]
  exact ⟨rfl, rfl, rfl, rfl⟩

/-- Settles O32: both commands are an `orWord`, and these commute and are idempotent. -/
theorem registersAndMergesCommute : Obligations.RegistersAndMergesCommute := by
  intro s i j hwf hr hxi hxj hi hj
  obtain ⟨a, d, hexec⟩ := exec_marking hi hxi
  obtain ⟨a', d', hexec'⟩ := exec_marking hj hxj
  have hwf1 := wf_orWord hwf a d
  have hwf2 := wf_orWord hwf a' d'
  obtain ⟨st, q, ht⟩ := hexec s hwf hr rfl
  obtain ⟨st', q', ht'⟩ := hexec' s hwf hr rfl
  obtain ⟨_, _, hu⟩ := hexec' (respond st q (orWord a d s)) hwf1 (by simpa using hr) (by simp)
  obtain ⟨_, _, hu'⟩ := hexec (respond st' q' (orWord a' d' s)) hwf2 (by simpa using hr) (by simp)
  obtain ⟨_, _, hw⟩ := hexec (respond st q (orWord a d s)) hwf1 (by simpa using hr) (by simp)
  rw [orWord_respond] at hu hu' hw
  exact ⟨_, _, _, _, _, ht, hu, ht', hu', orWord_comm hwf a a' d d', hw, orWord_idem hwf a d⟩

end Sys2Proof.Machine
end

section
/-! SUPPORT. The invariant of 10_state.md: `COUNT` is the number of set bits and of members, every step keeps it, and the
commands refine the set of members (R17, R19, R22, R23, R82, R87, R103, R104). -/

namespace Sys2Proof.Machine

/-! ### The set bits of both planes, as a population count and as members -/

/-- A count over `n` blocks of `b` positions, block by block. -/
theorem count_blocks (P : Nat → Prop) [DecidablePred P] (b n : Nat) :
    Nat.count P (n * b) = ((List.range n).map fun i => Nat.count (fun j => P (i * b + j)) b).sum := by
  induction n with
  | zero => simp
  | succ n ih => simp [Nat.succ_mul, Nat.count_add, List.range_succ, ih]

theorem count_congr {P Q : Nat → Prop} [DecidablePred P] [DecidablePred Q] {n : Nat} (h : ∀ p < n, P p ↔ Q p) :
    Nat.count P n = Nat.count Q n :=
  le_antisymm (Nat.count_mono_left fun p hp => (h p hp).mp) (Nat.count_mono_left fun p hp => (h p hp).mpr)

theorem sum_popcount_eq_count (p : Plane) (n : Nat) :
    ((List.range n).map fun i => popcount64 (p.read i)).sum =
      Nat.count (fun q => (p.read (q / 64)).getLsbD (q % 64) = true) (n * 64) := by
  rw [count_blocks]
  refine congrArg List.sum (List.map_congr_left fun i _ => ?_)
  rw [popcount64_eq_card, ← Nat.count_eq_card_filter_range]
  refine count_congr fun j hj => ?_
  rw [show (i * 64 + j) / 64 = i by omega, show (i * 64 + j) % 64 = j by omega]

/-- PopCount(P) counts the bits of the plane by their position in it (R48). -/
theorem popCount_eq_count (p : Plane) :
    p.popCount = Nat.count (fun q => (p.read (q / 64)).getLsbD (q % 64) = true) (Config.planeWords * 64) := by
  unfold Plane.popCount
  exact sum_popcount_eq_count p _

/-- The bit at position q of a plane. -/
theorem bitTest_position (k : PlaneSelect) {q : Nat} (hq : q < 2 ^ 31) (s : State) :
    bitTest (BitVec.ofNat 32 (k.num * 2 ^ 31 + q)) s = ((s.plane k).read (q / 64)).getLsbD (q % 64) := by
  have hk := k.num_le_one
  have hv : (BitVec.ofNat 32 (k.num * 2 ^ 31 + q)).toNat = k.num * 2 ^ 31 + q := by
    rw [BitVec.toNat_ofNat, Nat.mod_eq_of_lt (by omega)]
  have hplane : planeOf (BitVec.ofNat 32 (k.num * 2 ^ 31 + q)) = k := by
    rw [← PlaneSelect.num_injective.eq_iff, num_planeOf, hv]
    omega
  have hwidx : (widxOf (BitVec.ofNat 32 (k.num * 2 ^ 31 + q))).toNat = q / 64 := by
    rw [toNat_widxOf, hv]
    omega
  have hoff : (offOf (BitVec.ofNat 32 (k.num * 2 ^ 31 + q))).toNat = q % 64 := by
    rw [toNat_offOf, hv]
    omega
  rw [bitTest, wordOf, wordRead, hplane, hwidx, hoff]

theorem popCount_eq_count_bitTest (k : PlaneSelect) (s : State) :
    (s.plane k).popCount = Nat.count (fun q => bitTest (BitVec.ofNat 32 (k.num * 2 ^ 31 + q)) s = true) (2 ^ 31) := by
  rw [popCount_eq_count]
  exact count_congr fun q hq => by rw [bitTest_position k hq]

/-- The set bits of both planes are the members: the low plane holds the first half of the positions, the high plane the
second (R23, R48). -/
theorem popCount_eq_card_members (s : State) : s.lo.popCount + s.hi.popCount = (members s).card := by
  have hlo := popCount_eq_count_bitTest .low s
  have hhi := popCount_eq_count_bitTest .high s
  simp only [plane_low, plane_high, PlaneSelect.num, Nat.zero_mul, Nat.zero_add, Nat.one_mul] at hlo hhi
  rw [hlo, hhi, ← Nat.count_add, Nat.count_eq_card_filter_range]
  rfl

/-- The set bits of both planes after a word is written: what the word gains or loses (R48). -/
theorem popCount_wordWrite {s : State} (h : Memory.wf s = true) (k : PlaneSelect) (i : WordIndex) (w : BitmapWord) :
    (wordWrite k i w s).lo.popCount + (wordWrite k i w s).hi.popCount + popcount64 (wordRead k i s) =
      s.lo.popCount + s.hi.popCount + popcount64 w := by
  have hwrite := popCount_write _ (wf_plane h k) i.toNat (widx_lt i) w
  cases k with
  | low =>
    simp only [wordWrite, wordRead, plane_low, setPlane_low_lo, setPlane_low_hi] at hwrite ⊢
    omega
  | high =>
    simp only [wordWrite, wordRead, plane_high, setPlane_high_lo, setPlane_high_hi] at hwrite ⊢
    omega

/-- `orWord` sets as many bits as it adds to `COUNT` (R87, R103). -/
theorem popCount_orWord {s : State} (h : Memory.wf s = true) (a : AddressValue) (d : BitmapWord) :
    (orWord a d s).lo.popCount + (orWord a d s).hi.popCount =
      s.lo.popCount + s.hi.popCount + popcount64 (d &&& ~~~wordOf a s) := by
  have hwrite := popCount_wordWrite h (planeOf a) (widxOf a) (wordOf a s ||| d)
  rw [popcount64_or] at hwrite
  simp only [orWord, addToCount_lo, addToCount_hi, wordOf] at hwrite ⊢
  omega

/-! ### The invariant is kept -/

theorem inv_of_not_ready {s : State} (hwf : Memory.wf s = true) (hr : s.ready = false) : s.Inv where
  wf := hwf
  defined := by simp [hr]
  counted := by simp [hr]

theorem inv_constructed (s : State) : (constructed s).Inv where
  wf := rfl
  defined := fun _ => ⟨rfl, rfl⟩
  counted := fun _ => by simp

section
variable {s : State} (h : s.Inv)
include h

theorem State.Inv.setInputs (xs : List Input) : State.Inv { s with inputs := xs } := ⟨h.wf, h.defined, h.counted⟩

theorem State.Inv.respond (st : Status) (q : BitmapWord) : (respond st q s).Inv := ⟨h.wf, h.defined, h.counted⟩

theorem State.Inv.refuse (st : Status) : (refuse st s).Inv := h.respond st 0

variable (hr : s.ready = true)
include hr

/-- What a write adds to `COUNT` stays within the 2^32 bits of the store (R22). -/
theorem State.Inv.count_add_le (a : AddressValue) (d : BitmapWord) :
    s.count.toNat + popcount64 (d &&& ~~~wordOf a s) ≤ 2 ^ 32 := by
  have hlo := popCount_le (orWord a d s).lo
  have hhi := popCount_le (orWord a d s).hi
  have hpop := popCount_orWord h.wf a d
  have hcount := h.counted hr
  simp only [Config.planeWords] at hlo hhi
  omega

/-- The addition to `COUNT` does not wrap (R22). -/
theorem State.Inv.toNat_count_orWord (a : AddressValue) (d : BitmapWord) :
    (orWord a d s).count.toNat = s.count.toNat + popcount64 (d &&& ~~~wordOf a s) := by
  have hle := h.count_add_le hr a d
  rw [orWord_count, BitVec.toNat_add, BitVec.toNat_ofNat]
  omega

theorem State.Inv.orWord (a : AddressValue) (d : BitmapWord) : (orWord a d s).Inv where
  wf := wf_orWord h.wf a d
  defined := fun _ => by
    obtain ⟨hlo, hhi⟩ := h.defined hr
    exact ⟨(plane_orWord_background a d s .low).trans hlo, (plane_orWord_background a d s .high).trans hhi⟩
  counted := fun _ => by rw [h.toNat_count_orWord hr, popCount_orWord h.wf, h.counted hr]

/-- `COUNT` is the number of members (R23). -/
theorem State.Inv.count_eq_card : s.count.toNat = (members s).card := by
  rw [h.counted hr, popCount_eq_card_members]

end

/-- Every command keeps the invariant: what is not CONSTRUCT is refused before it, and after it responds or writes by
`orWord` (R17, R19). -/
theorem State.Inv.exec {s t : State} (h : s.Inv) {i : Instr} (he : exec i s = .next t) : t.Inv := by
  cases hr : s.ready with
  | false =>
    by_cases hc : i = .construct
    · subst hc
      cases he
      exact (inv_constructed s).respond .done 0
    · obtain ⟨st, hx⟩ := exec_of_not_ready hr hc
      cases hx.symm.trans he
      exact h.refuse st
  | true =>
    cases i with
    | construct =>
      cases he
      exact (inv_constructed s).respond .done 0
    | register v =>
      cases (exec_register_of_ready h.wf hr v).symm.trans he
      exact (h.orWord hr v _).respond _ _
    | count =>
      obtain ⟨st, q, hx⟩ := exec_query (.inl rfl) s
      cases hx.symm.trans he
      exact h.respond st q
    | rdword a =>
      obtain ⟨st, q, hx⟩ := exec_query (.inr ⟨a, rfl⟩) s
      cases hx.symm.trans he
      exact h.respond st q
    | merge a d =>
      cases hm : s.extM with
      | false =>
        cases (exec_illegal rfl hm).symm.trans he
        exact h.refuse .illegal
      | true =>
        cases (exec_merge_of_ready hm hr a d).symm.trans he
        exact (h.orWord hr a d).respond _ _

/-! ### The members after each operation -/

section
variable (s : State)

@[simp] theorem members_respond (st : Status) (q : BitmapWord) : members (respond st q s) = members s := by
  simp [members]

@[simp] theorem members_setInputs (xs : List Input) : members { s with inputs := xs } = members s := by simp [members]

@[simp] theorem members_constructed : members (constructed s) = ∅ := by simp [members]

end

/-- The positions a MERGE stands for lie in the bitmap. -/
theorem lt_of_mem_mergeSet {a : AddressValue} {d : BitmapWord} {p : Nat} (hp : p ∈ mergeSet a d) : p < 2 ^ 32 := by
  have hlt := a.isLt
  have hdiv := (mem_mergeSet.mp hp).1
  omega

/-- A write adds the positions it stands for to the members (R104). -/
theorem members_orWord {s : State} (h : Memory.wf s = true) (a : AddressValue) (d : BitmapWord) :
    members (orWord a d s) = members s ∪ mergeSet a d := by
  ext p
  rw [Finset.mem_union, mem_members, mem_members, bitTest_orWord h, BitVec.toNat_ofNat, Bool.or_eq_true, decide_eq_true_eq]
  by_cases hp : p < 2 ^ 32
  · simp only [hp, true_and, Nat.mod_eq_of_lt hp]
  · simp only [hp, false_and, false_or, mt lt_of_mem_mergeSet hp]

/-- The mask of the bit of `v` stands for `v` (R102). -/
theorem mergeSet_maskOf (v : AddressValue) : mergeSet v (maskOf (offOf v)) = {v.toNat} := by
  ext p
  rw [mem_mergeSet, getLsbD_maskOf, toNat_offOf, decide_eq_true_eq, Finset.mem_singleton]
  omega

/-- The bits a MERGE turns from 0 to 1 are the new members (R103, R104). -/
theorem popcount64_eq_card_sdiff {s : State} (h : Memory.wf s = true) (a : AddressValue) (d : BitmapWord) :
    popcount64 (d &&& ~~~wordOf a s) = (mergeSet a d \ members s).card := by
  have hpop := popCount_orWord h a d
  rw [popCount_eq_card_members, popCount_eq_card_members, members_orWord h, Finset.union_comm,
    ← Finset.card_sdiff_add_card, Nat.add_comm] at hpop
  exact (Nat.add_left_cancel hpop).symm

/-- A word is the sum of its bits' weights. -/
theorem sum_testBit_eq_mod (x n : Nat) : (∑ i ∈ Finset.range n, if x.testBit i then 2 ^ i else 0) = x % 2 ^ n := by
  induction n with
  | zero => simp [Nat.mod_one]
  | succ n ih =>
    rw [Finset.sum_range_succ, ih, Nat.mod_pow_succ, Nat.testBit_eq_decide_div_mod_eq]
    obtain hbit | hbit := Nat.mod_two_eq_zero_or_one (x / 2 ^ n) <;> simp [hbit]

/-- RDWORD's data as the sum over the members of the word (R101). -/
theorem sum_members_eq_wordOf (s : State) (a : AddressValue) :
    (∑ i ∈ Finset.range 64, if (globalOf a).toNat * 64 + i ∈ members s then 2 ^ i else 0) = (wordOf a s).toNat := by
  have hsum := sum_testBit_eq_mod (wordOf a s).toNat 64
  rw [Nat.mod_eq_of_lt (wordOf a s).isLt] at hsum
  rw [← hsum]
  exact Finset.sum_congr rfl fun i hi => if_congr (getLsbD_wordOf_iff a (Finset.mem_range.mp hi)).symm rfl rfl

/-! ### The commands on the abstract view -/

@[simp] theorem abstractView_respond (st : Status) (q : BitmapWord) (s : State) :
    abstractView (respond st q s) = abstractView s := by simp [abstractView]

theorem abstractView_of_ready {s : State} (hr : s.ready = true) : abstractView s = some (members s) := by
  simp [abstractView, hr]

theorem abstractView_of_not_ready {s : State} (hr : s.ready = false) : abstractView s = none := by
  simp [abstractView, hr]

/-- Before CONSTRUCT the set operations answer NOTREADY, as the unit does. -/
theorem abstractCommand_none {i : Instr} (hc : i ≠ .construct) : abstractCommand i none = (none, .notReady, 0) := by
  cases i with
  | construct => exact absurd rfl hc
  | register v => rfl
  | count => rfl
  | rdword a => rfl
  | merge a d => rfl

/-- On a constructed unit every command but CONSTRUCT does to the members what the set operation does (R23, R90, R104). -/
theorem exec_refines_of_ready {s : State} (h : s.Inv) (hr : s.ready = true) {i : Instr}
    (hx : wellFormed s.extM i = true) (hc : i ≠ .construct) :
    ∃ st q u, exec i s = .next (respond st q u) ∧ u.rsps = s.rsps ∧
      (abstractView u, st, q) = ((abstractCommand i (some (members s))).1, (abstractCommand i (some (members s))).2.1,
        BitVec.ofNat 64 (abstractCommand i (some (members s))).2.2) := by
  cases i with
  | construct => exact absurd rfl hc
  | register v =>
    refine ⟨_, _, _, exec_register_of_ready h.wf hr v, orWord_rsps _ _ s, ?_⟩
    rw [abstractView_of_ready (by simpa using hr), members_orWord h.wf, mergeSet_maskOf]
    cases hb : bitTest v s with
    | true =>
      have hmem : v.toNat ∈ members s := (toNat_mem_members v).mpr hb
      simp [abstractCommand, hmem]
    | false => simp [abstractCommand, hb]
  | count =>
    refine ⟨_, _, _, exec_count_of_ready hr, rfl, ?_⟩
    rw [abstractView_of_ready hr, abstractCommand, ← h.count_eq_card hr, BitVec.ofNat_toNat]
  | rdword a =>
    have hm : s.extM = true := by simpa [wellFormed, Instr.needsExtM] using hx
    refine ⟨_, _, _, exec_rdword_of_ready hm hr a, rfl, ?_⟩
    rw [abstractView_of_ready hr, abstractCommand, sum_members_eq_wordOf, BitVec.ofNat_toNat, BitVec.setWidth_eq]
  | merge a d =>
    have hm : s.extM = true := by simpa [wellFormed, Instr.needsExtM] using hx
    refine ⟨_, _, _, exec_merge_of_ready hm hr a d, orWord_rsps _ _ s, ?_⟩
    rw [abstractView_of_ready (by simpa using hr), members_orWord h.wf, popcount64_eq_card_sdiff h.wf]
    simp only [abstractCommand]

/-! ### The statements -/

/-- Settles O40: reset and refusals keep the invariant, and every command does. -/
theorem stepKeepsInv : Obligations.StepKeepsInv := by
  intro s t h hstep
  obtain ⟨-, he⟩ | ⟨x, rest, -, he⟩ := step_cases s
  · cases he.symm.trans hstep
    exact h
  · have htaken := h.setInputs rest
    rw [he] at hstep
    obtain ⟨-, hx⟩ | ⟨_, _, -, -, hx⟩ | ⟨_, i, -, -, hx⟩ := handle_cases x { s with inputs := rest }
    · cases hx.symm.trans hstep
      exact inv_of_not_ready rfl rfl
    · cases hx.symm.trans hstep
      exact htaken.refuse .illegal
    · exact htaken.exec (hx.symm.trans hstep)

/-- Settles O39: `READY` is 0 and the planes list no word. -/
theorem resetHasInv : Obligations.ResetHasInv := ⟨fun _ => inv_of_not_ready rfl rfl, inv_of_not_ready rfl rfl⟩

/-- Settles O41: the additions are those of `orWord`, for REGISTER with the mask of its bit. -/
theorem countNeverWraps : Obligations.CountNeverWraps := by
  refine fun s h hr => ⟨count_le_of_inv h hr, fun v hb => ?register, fun a d => ?merge⟩
  case register =>
    have hle := h.count_add_le hr v (maskOf (offOf v))
    have hcount := h.toNat_count_orWord hr v (maskOf (offOf v))
    rw [popcount64_registerMask, hb] at hle hcount
    rw [orWord_count, popcount64_registerMask, hb] at hcount
    exact ⟨hcount, hle⟩
  case merge => exact ⟨orWord_count a d s ▸ h.toNat_count_orWord hr a d, h.count_add_le hr a d⟩

/-- Settles O42, by the count invariant and `popCount_eq_card_members`. -/
theorem countIsTheNumberOfMembers : Obligations.CountIsTheNumberOfMembers := fun _ h hr => h.count_eq_card hr

/-- Settles O43: CONSTRUCT empties the set, a unit not constructed refuses all else, and a constructed one refines the set
by `exec_refines_of_ready`. -/
theorem commandsRefineTheSetOfMembers : Obligations.CommandsRefineTheSetOfMembers := by
  intro s i h hx
  by_cases hc : i = .construct
  · subst hc
    exact ⟨_, rfl, by simp [abstractView, abstractCommand], rfl⟩
  · cases hr : s.ready with
    | false =>
      rw [abstractView_of_not_ready hr, abstractCommand_none hc]
      exact ⟨_, exec_notReady hr hc hx, abstractView_of_not_ready hr, rfl⟩
    | true =>
      obtain ⟨st, q, u, he, hrsps, heq⟩ := exec_refines_of_ready h hr hx hc
      simp only [Prod.mk.injEq] at heq
      obtain ⟨hview, hst, hq⟩ := heq
      rw [abstractView_of_ready hr]
      exact ⟨_, he, by rw [abstractView_respond, hview], by rw [respond_rsps, hrsps, hst, hq]⟩

end Sys2Proof.Machine
end

section
/-! SUPPORT. The statements about runs: what COUNT stands for over a stream of commands, a counting pass, and merging one
unit into another (42_count.md R97; 43_merge_extension.md R105, R106; 49_host_codec_and_driver.md R117, R118). -/

namespace Sys2Proof.Machine

/-! ### A stream of commands on a constructed unit -/

/-- A unit on which `COUNT` means something: constructed, with the invariant. -/
structure Counting (s : State) : Prop where
  inv : s.Inv
  ready : s.ready = true

theorem Counting.setInputs {s : State} (h : Counting s) (xs : List Input) : Counting { s with inputs := xs } :=
  ⟨h.inv.setInputs xs, h.ready⟩

theorem Counting.respond {s : State} (h : Counting s) (st : Status) (q : BitmapWord) : Counting (respond st q s) :=
  ⟨h.inv.respond st q, h.ready⟩

theorem Counting.orWord {s : State} (h : Counting s) (a : AddressValue) (d : BitmapWord) : Counting (orWord a d s) :=
  ⟨h.inv.orWord h.ready a d, by simpa using h.ready⟩

theorem counting_constructed (s : State) : Counting (constructed s) := ⟨inv_constructed s, rfl⟩

/-! ### What the responses say of `COUNT` -/

/-- What a command adds to `COUNT`, as its response shows it (R97): `contribution` of a word that decodes to it. -/
theorem exec_contribution {s : State} (h : Counting s) {cw : CommandWord} {i : Instr} (hd : decode s.extM cw = .ok i)
    (hc : i ≠ .construct) : ∃ t rw, exec i s = .next t ∧ t.rsps = s.rsps ++ [rw] ∧
      t.count.toNat = s.count.toNat + contribution s.extM cw rw ∧ Counting t := by
  have hx := wellFormed_of_decode hd
  cases i with
  | construct => exact absurd rfl hc
  | register v =>
    refine ⟨_, _, exec_register_of_ready h.inv.wf h.ready v, respond_orWord_rsps _ _ s _ _, ?_, (h.orWord v _).respond _ _⟩
    rw [respond_count, h.inv.toNat_count_orWord h.ready, popcount64_registerMask]
    cases bitTest v s <;> simp [contribution, hd, Status.code]
  | count =>
    obtain ⟨st, q, he⟩ := exec_query (.inl rfl) s
    exact ⟨_, _, he, rfl, by simp [contribution, hd], h.respond st q⟩
  | rdword a =>
    obtain ⟨st, q, he⟩ := exec_query (.inr ⟨a, rfl⟩) s
    exact ⟨_, _, he, rfl, by simp [contribution, hd], h.respond st q⟩
  | merge a d =>
    have hm : s.extM = true := by simpa [wellFormed, Instr.needsExtM] using hx
    refine ⟨_, _, exec_merge_of_ready hm h.ready a d, respond_orWord_rsps _ _ s _ _, ?_, (h.orWord a d).respond _ _⟩
    rw [respond_count, h.inv.toNat_count_orWord h.ready]
    simp only [contribution, hd, stField_responseWord, if_true, qField_responseWord, toNat_ofNat_popcount64]

theorem accept_contribution {s : State} (h : Counting s) {cw : CommandWord} (hc : decode s.extM cw ≠ .ok .construct) :
    ∃ t rw, accept cw s = .next t ∧ t.extM = s.extM ∧ t.inputs = s.inputs ∧ t.rsps = s.rsps ++ [rw] ∧
      t.count.toNat = s.count.toNat + contribution s.extM cw rw ∧ Counting t := by
  cases hd : decode s.extM cw with
  | error e =>
    exact ⟨_, _, accept_of_decode_error s hd, rfl, rfl, rfl, by simp [contribution, hd], h.respond .illegal 0⟩
  | ok i =>
    obtain ⟨t, rw, he, hrsps, hcount, ht⟩ := exec_contribution h hd (by rintro rfl; exact hc hd)
    obtain ⟨hext, hin, -⟩ := exec_samePort he
    exact ⟨t, rw, (accept_of_decode_ok s hd).trans he, hext, hin, hrsps, hcount, ht⟩

/-- Settles O46, by induction on the words; each adds its `contribution`. -/
theorem countIsNewResponsesPlusMergedBits : Obligations.CountIsNewResponsesPlusMergedBits := by
  intro s cws hinv hr hc hin
  induction cws generalizing s with
  | nil => exact ⟨s, [], rfl, by simp, rfl, by simp⟩
  | cons cw cws ih =>
    obtain ⟨hcw, hcws⟩ := List.forall_mem_cons.mp hc
    have htaken : Counting { s with inputs := cws.map .command } := Counting.setInputs ⟨hinv, hr⟩ _
    obtain ⟨u, rw, hu, hext, huin, hursps, hucount, hcounting⟩ := accept_contribution htaken hcw
    obtain ⟨t, rws, ht, hrsps, hlen, hcount⟩ := ih u hcounting.inv hcounting.ready (by rwa [hext]) huin
    refine ⟨t, rw :: rws, (run_succ _ ((step_command hin).trans hu)).trans ht, ?_, by simp [hlen], ?_⟩
    · simp [hrsps, hursps]
    · rw [hcount, hucount, hext, List.zipWith_cons_cons, List.sum_cons, Nat.add_assoc]

/-! ### A counting pass -/

theorem accept_encode_count (s : State) : accept (encode .count) s = exec .count s :=
  accept_count s Laws.EncodeFields.count.1

/-- A run over REGISTERs inserts their address values. -/
theorem registers_run (vs : List AddressValue) (rest : List Input) (k : Nat) {s : State} (h : Counting s)
    (hin : s.inputs = (vs.map fun v => encode (.register v)).map .command ++ rest) :
    ∃ t : State, Host.Core.run core (vs.length + k) s = Host.Core.run core k t ∧ t.inputs = rest ∧ Counting t ∧
      members t = members s ∪ vs.toFinset.image BitVec.toNat := by
  induction vs generalizing s with
  | nil => exact ⟨s, by simp, hin, h, by simp⟩
  | cons v vs ih =>
    have htaken := h.setInputs ((vs.map fun v => encode (.register v)).map .command ++ rest)
    have hstep := (step_command hin).trans
      ((accept_encode_register v _).trans (exec_register_of_ready htaken.inv.wf htaken.ready v))
    obtain ⟨t, ht, htin, hcounting, hmembers⟩ := ih ((htaken.orWord v _).respond _ 0) (by simp)
    refine ⟨t, ?_, htin, hcounting, ?_⟩
    · rw [List.length_cons, Nat.add_right_comm, run_succ _ hstep, ht]
    · rw [hmembers, members_respond, members_orWord htaken.inv.wf, mergeSet_maskOf, members_setInputs, Finset.union_assoc,
        List.toFinset_cons, Finset.image_insert, Finset.insert_eq]

/-- COUNT on a constructed unit answers the number of members (R23, R95). -/
theorem exec_count_of_counting {s : State} (h : Counting s) :
    ∃ q, exec .count s = .next (respond .done q s) ∧ q.toNat = (members s).card :=
  ⟨_, exec_count_of_ready h.ready, by rw [toNat_zext, h.inv.count_eq_card h.ready]⟩

theorem getLast?_respond (s : State) (st : Status) (q : BitmapWord) :
    (respond st q s).rsps.getLast? = some (responseWord st q) := by simp

/-- Settles O50: CONSTRUCT empties the set, the REGISTERs insert the decoded lines, and COUNT answers the size. -/
theorem countingPassReportsTheDistinctAddresses : Obligations.CountingPassReportsTheDistinctAddresses := by
  intro s lines hin
  simp only [countingPass, Bool.false_eq_true, if_false, List.cons_append, List.map_cons, List.map_append,
    List.map_nil] at hin
  have hlen : (countingPass lines false).length = (decodedLines lines).length + 1 + 1 := by simp [countingPass]
  have hfirst := (step_command hin).trans (accept_encode_construct _)
  obtain ⟨u, hrun, huin, hu, hmembers⟩ := registers_run (decodedLines lines) [.command (encode .count)] 1
    (s := respond .done 0 (constructed { s with inputs := _ })) ((counting_constructed _).respond .done 0) rfl
  obtain ⟨q, hcount, hq⟩ := exec_count_of_counting (hu.setInputs [])
  have hlast := (step_command huin).trans ((accept_encode_count _).trans hcount)
  rw [hlen]
  refine ⟨_, _, (run_succ _ hfirst).trans (hrun.trans (run_succ 0 hlast)), getLast?_respond _ .done q,
    by simp [Status.code], ?_⟩
  rw [qField_responseWord, hq, members_setInputs, hmembers, members_respond, members_constructed, Finset.empty_union,
    Finset.card_image_of_injective _ (fun _ _ => BitVec.eq_of_toNat_eq)]

/-! ### Merging one unit into another -/

theorem transact_of_accept {cw : CommandWord} {s u : State} {st : Status} {q : BitmapWord}
    (h : accept cw s = .next (respond st q u)) : transact cw s = some (respond st q u, responseWord st q) := by
  simp [transact, h]

theorem accept_encode_rdword (a : AddressValue) (s : State) : accept (encode (.rdword a)) s = exec (.rdword a) s := by
  simpa [encode] using accept_rdword s (Laws.EncodeFields.rdword a).1

theorem accept_encode_merge (a : AddressValue) (d : BitmapWord) (s : State) :
    accept (encode (.merge a d)) s = exec (.merge a d) s := by
  simpa [encode] using accept_merge s (Laws.EncodeFields.merge a d).1

/-- The operand `g * 64` names the word g (R73). -/
theorem globalOf_wordAddress (g : GlobalIndex) : globalOf (wordAddress g) = g := by
  apply BitVec.eq_of_toNat_eq
  rw [toNat_globalOf, wordAddress, BitVec.toNat_cast, toNat_append_eq]
  simp

/-- What a MERGE of B's word g stands for: the members of B in that word (R105). -/
theorem mem_mergeSet_wordAddress {g : GlobalIndex} {v : AddressValue} {b : State} :
    v.toNat ∈ mergeSet (wordAddress g) (wordOf (wordAddress g) b) ↔ globalOf v = g ∧ bitTest v b = true := by
  rw [mem_mergeSet, ← toNat_globalOf, ← toNat_globalOf, BitVec.toNat_inj, globalOf_wordAddress, ← toNat_offOf]
  refine and_congr_right fun hg => ?_
  rw [bitTest, wordOf_congr (hg.trans (globalOf_wordAddress g).symm)]

/-- One round of the merge: B only responds, and A takes in B's word (R106). -/
theorem mergeWord_of_ready {a b : State} (hma : a.extM = true) (hra : a.ready = true) (hmb : b.extM = true)
    (hrb : b.ready = true) (g : GlobalIndex) : ∃ q q', mergeWord g a b =
      some (respond .done q (orWord (wordAddress g) (wordOf (wordAddress g) b) a), respond .done q' b) := by
  have hread := transact_of_accept ((accept_encode_rdword (wordAddress g) b).trans (exec_rdword_of_ready hmb hrb _))
  have hmerge := transact_of_accept ((accept_encode_merge (wordAddress g) (wordOf (wordAddress g) b) a).trans
    (exec_merge_of_ready hma hra _ _))
  simp only [mergeWord, hread, qField_responseWord, hmerge]
  exact ⟨_, _, rfl⟩

/-- After the words `gs`, in any order and with any repeats, A has its own bits and those of B in these words; B is as
before (R106). -/
theorem mergeUnits_spec (gs : List GlobalIndex) {a b : State} (ha : Counting a) (hma : a.extM = true) (hmb : b.extM = true)
    (hrb : b.ready = true) : ∃ a' b', mergeUnits gs a b = some (a', b') ∧ Counting a' ∧ sameUnit b b' ∧
      ∀ v, bitTest v a' = true ↔ bitTest v a = true ∨ (globalOf v ∈ gs ∧ bitTest v b = true) := by
  induction gs generalizing a b with
  | nil => exact ⟨a, b, rfl, ha, ⟨rfl, rfl, rfl, rfl⟩, by simp⟩
  | cons g gs ih =>
    obtain ⟨q, q', hword⟩ := mergeWord_of_ready hma ha.ready hmb hrb g
    obtain ⟨a', b', hunits, ha', hsame, hbits⟩ := ih (a := respond .done q _) (b := respond .done q' b)
      ((ha.orWord (wordAddress g) (wordOf (wordAddress g) b)).respond .done q) (by simpa using hma) hmb hrb
    refine ⟨a', b', by simp only [mergeUnits, hword, hunits], ha', hsame, fun v => ?_⟩
    rw [hbits, bitTest_respond, bitTest_respond, bitTest_orWord ha.inv.wf, Bool.or_eq_true, decide_eq_true_eq,
      mem_mergeSet_wordAddress, List.mem_cons]
    tauto

/-- Settles O47: a member of B lies in a word that is not 0, so its word is on the list. -/
theorem mergingAUnitGivesTheUnion : Obligations.MergingAUnitGivesTheUnion := by
  intro gs a b ha hb hra hrb hma hmb hgs
  obtain ⟨a', b', hunits, ha', hsame, hbits⟩ := mergeUnits_spec gs ⟨ha, hra⟩ hma hmb hrb
  have hlisted : ∀ v, bitTest v b = true → globalOf v ∈ gs := fun v hv => hgs v fun hzero => by
    simp [bitTest, hzero] at hv
  have hunion : members a' = members a ∪ members b := by
    ext p
    have hmem := hlisted (BitVec.ofNat 32 p)
    rw [Finset.mem_union, mem_members, mem_members, mem_members, hbits]
    tauto
  exact ⟨a', b', hunits, hunion, by rw [ha'.inv.count_eq_card ha'.ready, hunion], hsame⟩

end Sys2Proof.Machine
end
